-- ==== Sys2Proof/Word.lean ====
section
/-! DEFINITION. The machine's word types: the byte that registers and memory cells hold (spec/00_scope.md R2, R3)
and the nine-bit word of the program counter and of the heap boundary (spec/10_state.md R16, R19). -/

namespace Sys2Proof

/-- A byte: an unsigned integer 0..255 (00_scope.md, section 5.1). -/
abbrev Byte := BitVec 8

/-- A nine-bit word: the width the spec gives `pc` (10_state.md R16) and `rh` (R19). -/
abbrev Word9 := BitVec 9

/-- A byte used as an address of an instruction: the same number in nine bits. -/
def Byte.toWord9 (b : Byte) : Word9 := b.setWidth 9

end Sys2Proof
end

