-- ==== Sys2Proof/Config.lean ====
section
/-! DEFINITION. The sizes the spec marks as FIXED (spec/00_scope.md R2, R3, R4). They are facts of the source and no
defaults. The parameters the spec marks as open stand where a test could still correct them: OPCODE_MAP in
Sys2Proof/Decode.lean (`opcodeMap`), SP_INIT, REG_INIT and MEM_FILL in Sys2Proof/Machine/Params.lean. No value of this
hardware is left free (spec/93_implementation_defined.md, end of Part 1), so there is no opaque constant here. -/

namespace Sys2Proof.Config

/-- `MEM_SIZE` (00_scope.md R2): the number of memory cells. -/
abbrev memSize : Nat := 256

/-- `NREGS` (00_scope.md R3): the number of general registers. -/
abbrev numRegs : Nat := 8

/-- `SP_INDEX` (00_scope.md R4, 10_state.md R11): register 7 is the stack pointer. -/
abbrev spIndex : Fin numRegs := 7

end Sys2Proof.Config
end

