-- ==== Sys2Proof/Machine/Params.lean ====
section
/-! DEFINITION. The open parameters of the machine at the defaults the spec gives them (spec/00_scope.md R5, R6; the table at
the end of spec/92_eei_decisions.md). They stand here, and not in Config.lean, so that a test can still correct one. -/

namespace Sys2Proof.Machine

/-- `SP_INIT` (00_scope.md R5): the reset value of `x[7]` and the mark of an empty stack (43_stack.md R121). The spec's
own choice (decision D6; log 2). -/
def spInit : Byte := 0xFF

/-- `REG_INIT` (00_scope.md R6): the reset value of `x[0]` .. `x[6]`. The spec's own choice (decision D7; log 3). -/
def regInit : Byte := 0x00

/-- `MEM_FILL` (00_scope.md R6): what a cell holds at reset that the program does not cover. The spec's own choice
(decision D8; log 4). -/
def memFill : Byte := 0x00

end Sys2Proof.Machine
end

