-- ==== Sys2Proof/Machine/State.lean ====
section
/-! DEFINITION. The architectural state as plain data (spec/10_state.md R10 to R27), the reasons a step can stop, and the state
after reset. -/

namespace Sys2Proof.Machine

/-- A register index 0..7 (10_state.md R10). -/
abbrev RegIdx := Fin Config.numRegs

/-- The flags register `fl`: exactly one of four states (10_state.md R17). -/
inductive Fl where
  /-- `None`: no compare has executed since reset. -/
  | none
  /-- `LT`: less-than. -/
  | lt
  /-- `GT`: greater-than. -/
  | gt
  /-- `EQ`: equal. -/
  | eq
  deriving DecidableEq, Repr

/-- The five fault kinds (60_exceptions.md R151), in the order of their ordinals. -/
inductive FaultKind where
  | unrecognizedOpcode
  | outOfRangeAddress
  | stackOverflow
  | arithmeticFault
  | stackUnderflow
  deriving DecidableEq, Repr

/-- What a fault exposes (60_exceptions.md R157). -/
structure Snapshot where
  /-- The program counter at the moment of the fault. -/
  pc : Word9
  /-- The bytes at `pc`, `pc + 1`, `pc + 2`; an entry whose address is above 255 is absent. -/
  bytes : Vector (Option Byte) 3
  /-- The eight registers at the moment of the fault. -/
  regs : Vector Byte Config.numRegs
  deriving DecidableEq, Repr

/-- The state of the execution loop (10_state.md R20). -/
inductive Run where
  | running
  | halted
  | faulted (kind : FaultKind) (snapshot : Snapshot)
  deriving DecidableEq, Repr

/-- A print event (10_state.md R22, 42_data_move.md R115). -/
inductive Event where
  /-- `Num(v)`, from PRN. -/
  | num (v : Byte)
  /-- `Chr(v)`, from PRA: the raw byte. -/
  | chr (v : Byte)
  deriving DecidableEq, Repr

/-- Memory: the cells whose value differs from `memFill`, by rising address (the canonical form `Memory.wf` of
Machine/Memory.lean); every other address 0..255 reads as `memFill`. -/
abbrev Memory := List Host.Cell

/-- The whole state of the machine: the tuple of 10_state.md and the transient `ir`. -/
structure State where
  /-- `x[0]` .. `x[7]` (10_state.md R10); `x[7]` is the stack pointer (R11). -/
  regs : Vector Byte Config.numRegs
  /-- The program counter, 0..257 (10_state.md R14, R16). -/
  pc : Word9
  /-- The flags (10_state.md R17, R18). -/
  fl : Fl
  /-- The heap boundary, 0..256 (10_state.md R19). -/
  rh : Word9
  /-- The 256 memory cells (20_memory.md R30). -/
  mem : Memory
  /-- The run state (10_state.md R20). -/
  run : Run
  /-- The instruction register (10_state.md R21). -/
  ir : Byte
  /-- The output stream, oldest event first (10_state.md R22). -/
  out : List Event
  deriving DecidableEq, Repr

/-- Why a step has no next state. The machine's own five faults are NOT here: the spec describes the state they leave,
so they are next states whose `run` is `faulted` (60_exceptions.md R150, R161). -/
inductive Fault where
  /-- Raised by `step` on a halted machine: the spec defines Step on `Running` states only (40_dispatch_cycle.md R70) and no
  instruction executes after HLT (10_state.md R20). Safe: the machine stops, as the hardware does. -/
  | halted
  /-- Raised by `step` on a faulted machine, for the same reason (10_state.md R20, 60_exceptions.md R162). Safe. -/
  | faulted (kind : FaultKind)
  deriving DecidableEq, Repr

/-- Why something is given no meaning. -/
inductive Refusal where
  /-- Raised by an arm of `exec` whose instruction has no meaning in the model; every instruction has one, so no arm
  raises it. Safe. -/
  | notModelled (mnemonic : String)
  /-- Raised by `load` for a program image of more than 256 bytes: refused before the machine exists
  (70_reset_and_hazards.md R184). Safe. -/
  | imageTooLong (length : Nat)
  deriving DecidableEq, Repr

/-- What a step, a meaning or a load answers. -/
abbrev Result := Host.Outcome State Fault Refusal

/-- The machine right after reset (10_state.md R26, 70_reset_and_hazards.md R181) with the image of length 0: nothing is loaded,
`rh = 0` and every cell reads as `memFill`. `ir` is unspecified in the spec and 0 here (DESIGN CHOICE, log 5). A program
comes in by `load` (log 11). -/
def State.reset : State where
  regs := (Vector.replicate Config.numRegs regInit).set Config.spIndex spInit
  pc := 0
  fl := .none
  rh := 0
  mem := []
  run := .running
  ir := 0
  out := []

end Sys2Proof.Machine
end

