-- ==== Sys2Proof/Machine/Flags.lean ====
section
/-! DEFINITION. The flags: what CMP writes and when a conditional jump is taken (spec/10_state.md R17, R18, spec/41_alu.md R97,
spec/44_control_flow.md R143). No other instruction reads or writes them (spec/41_alu.md R106). -/

namespace Sys2Proof.Machine

/-- What CMP writes: equality is tested before the ordering, and the ordering is of unsigned bytes (41_alu.md R97). -/
def compareFl (va vb : Byte) : Fl :=
  if va = vb then .eq else if va.toNat < vb.toNat then .lt else .gt

/-- `fl` as the three-bit register: bit 2 is L, bit 1 is G, bit 0 is E (10_state.md R17; the assignment is the spec's from
general knowledge, and no instruction exposes it; log 13). -/
def Fl.bits : Fl → BitVec 3
  | .none => 0b000
  | .lt => 0b100
  | .gt => 0b010
  | .eq => 0b001

/-- The condition of each conditional jump. -/
inductive Cond where
  | eq | ne | gt | ge | lt | le
  deriving DecidableEq, Repr

/-- `fl in Taken(cc)`, the table of 44_control_flow.md R143. -/
def Cond.taken : Cond → Fl → Bool
  | .eq, f => decide (f = .eq)
  | .ne, f => decide (f ≠ .eq)
  | .gt, f => decide (f = .gt)
  | .ge, f => decide (f = .gt ∨ f = .eq)
  | .lt, f => decide (f = .lt)
  | .le, f => decide (f = .lt ∨ f = .eq)

end Sys2Proof.Machine
end

