-- ==== Sys2Proof/Machine/Memory.lean ====
section
/-! DEFINITION. Memory as a list of cells in one canonical form: reading, writing, the form itself, and storing a run of bytes
(spec/20_memory.md R30 to R32). -/

namespace Sys2Proof.Machine

/-- The value of a cell: the listed one, else the fill. Addresses are those of the address space, 0..255. -/
def Memory.read : Memory → Nat → Byte
  | [], _ => memFill
  | (k, v) :: m, a => if k = a then v else Memory.read m a

/-- Sets one cell and keeps the canonical form: writing the fill value removes the entry. -/
def Memory.write : Memory → Nat → Byte → Memory
  | [], a, v => if v = memFill then [] else [(a, v)]
  | (k, w) :: m, a, v =>
    if a < k then (if v = memFill then (k, w) :: m else (a, v) :: (k, w) :: m)
    else if a = k then (if v = memFill then m else (a, v) :: m)
    else (k, w) :: Memory.write m a v

/-- The canonical form from address `lo` on: addresses strictly rising, inside the address space, and no entry that
equals the fill. -/
def Memory.wfFrom : Nat → Memory → Bool
  | _, [] => true
  | lo, (a, v) :: m =>
    decide (lo ≤ a) && decide (a < Config.memSize) && decide (v ≠ memFill) && Memory.wfFrom (a + 1) m

/-- The canonical form: equal memories are equal lists. -/
def Memory.wf (m : Memory) : Bool := Memory.wfFrom 0 m

/-- Stores bytes at ascending addresses from `a`; an address above 255 does not exist and nothing is stored there. -/
def Memory.storeBytes (m : Memory) (a : Nat) : List Byte → Memory
  | [] => m
  | b :: bs => Memory.storeBytes (if a < Config.memSize then m.write a b else m) (a + 1) bs

end Sys2Proof.Machine
end

