-- ==== Sys2Proof/Machine/Ops.lean ====
section
/-! DEFINITION. The operations every meaning is made of: registers, the program counter, raising a fault, memory accesses, print
events, and the stack's push and pop (spec/00_scope.md section 5.3, spec/20_memory.md, spec/43_stack.md,
spec/60_exceptions.md). An operation that may raise a fault takes what follows it as its last argument, and does not
run it when it raises. -/

namespace Sys2Proof.Machine

/-- `x[i]` (10_state.md R10). -/
def State.reg (s : State) (i : RegIdx) : Byte := s.regs[i]

/-- `x[i] <- v` (10_state.md R10). No register is hard-wired (R13). -/
def State.setReg (s : State) (i : RegIdx) (v : Byte) : State := { s with regs := s.regs.set i v }

/-- `SP`, that is `x[7]` (10_state.md R11). -/
def State.sp (s : State) : Byte := s.reg Config.spIndex

/-- `SP <- v`. -/
def State.setSp (s : State) (v : Byte) : State := s.setReg Config.spIndex v

/-- `pc <- target`, a byte (44_control_flow.md R132, R144). -/
def State.jumpTo (s : State) (target : Byte) : State := { s with pc := target.toWord9 }

/-- `pc <- pc + n`, not reduced (10_state.md R15, R16): `pc` is at most 255 while an instruction runs, so nine bits hold
the sum. -/
def State.advance (s : State) (n : Nat) : State := { s with pc := s.pc + BitVec.ofNat 9 n }

/-- `Emit(e)` (42_data_move.md R115): appends the event to `out`. -/
def State.emit (s : State) (e : Event) : State := { s with out := s.out ++ [e] }

/-- `mem[a]` where the address exists (20_memory.md R30, R31). -/
def State.byteAt (s : State) (a : Nat) : Option Byte :=
  if a < Config.memSize then some (s.mem.read a) else none

/-- The snapshot of the present state (60_exceptions.md R157). -/
def State.snapshot (s : State) : Snapshot where
  pc := s.pc
  bytes := #v[s.byteAt s.pc.toNat, s.byteAt (s.pc.toNat + 1), s.byteAt (s.pc.toNat + 2)]
  regs := s.regs

/-- The state in which a fault of kind `k` leaves the machine: `run` records the kind and the snapshot, nothing else
changes, and control goes nowhere (60_exceptions.md R150, R161). -/
def State.faultedWith (s : State) (k : FaultKind) : State := { s with run := .faulted k s.snapshot }

/-- `raise K` (60_exceptions.md R150): TAKING AN EXCEPTION, the machine's only mechanism for it. There is no return from one
beside it, because the spec gives none (R162): IRET is a no-op (44_control_flow.md R142) and only a reset starts
execution again. -/
def raise (k : FaultKind) (s : State) : Result := .next (s.faultedWith k)

/-- The spec's number of a fault kind (60_exceptions.md R151; the ordinals are the spec's own, decision D31). -/
def FaultKind.ordinal : FaultKind → Nat
  | .unrecognizedOpcode => 1
  | .outOfRangeAddress => 2
  | .stackOverflow => 3
  | .arithmeticFault => 4
  | .stackUnderflow => 5

/-- `MemRead(addr, 1)` (20_memory.md R31). -/
def withMemRead (s : State) (addr : Nat) (next : Byte → Result) : Result :=
  match s.byteAt addr with
  | some v => next v
  | none => raise .outOfRangeAddress s

/-- `MemWrite(addr, 1, v)` (20_memory.md R32). -/
def withMemWrite (s : State) (addr : Nat) (v : Byte) (next : State → Result) : Result :=
  if addr < Config.memSize then next { s with mem := s.mem.write addr v } else raise .outOfRangeAddress s

/-- The first action of `Push`: `SP <- (SP - 1) mod 256` (43_stack.md R120). -/
def State.decSp (s : State) : State := s.setSp (s.sp - 1)

/-- The last action of `Pop`: `SP <- (SP + 1) mod 256` (43_stack.md R121). -/
def State.incSp (s : State) : State := s.setSp (s.sp + 1)

/-- `Push(v)` (43_stack.md R120): decrement, then compare with `rh` for equality, then write. The value is a function of
the state after the decrement, because PUSH reads its register there (R122). -/
def withPush (value : State → Byte) (s : State) (next : State → Result) : Result :=
  let s1 := s.decSp
  if s1.sp.toNat = s1.rh.toNat then raise .stackOverflow s1
  else withMemWrite s1 s1.sp.toNat (value s1) next

/-- The check and the read of `Pop()` (43_stack.md R121); the increment is `State.incSp`, which POP and RET do after they
have written the byte to its place (R123; 44_control_flow.md R131). -/
def withPopped (s : State) (next : Byte → Result) : Result :=
  if s.sp = spInit then raise .stackUnderflow s
  else withMemRead s s.sp.toNat next

end Sys2Proof.Machine
end

