-- ==== Sys2Proof/Machine/Operands.lean ====
section
/-! DEFINITION. The operand forms: a register operand is a whole byte that must name one of the eight registers, checked before
the handler changes any state, `b1` first and then `b2` (spec/30_encoding.md R52, spec/40_dispatch_cycle.md R74). The
only other operand is LDI's immediate, used as it stands (R53). -/

namespace Sys2Proof.Machine

/-- The register a byte names, if it names one (30_encoding.md R52): the upper five bits are not masked off. -/
def regIndex (b : Byte) : Option RegIdx :=
  if h : b.toNat < Config.numRegs then some ⟨b.toNat, h⟩ else none

/-- The operand byte that names a register. -/
def RegIdx.byte (r : RegIdx) : Byte := BitVec.ofNat 8 r.val

/-- `r = Reg(b1)`, or `OutOfRangeAddress` (40_dispatch_cycle.md R74). -/
def withReg (b1 : Byte) (s : State) (next : RegIdx → Result) : Result :=
  match regIndex b1 with
  | some r => next r
  | none => raise .outOfRangeAddress s

/-- `a = Reg(b1)`, then `b = Reg(b2)`, or `OutOfRangeAddress` (40_dispatch_cycle.md R74, R79). -/
def withRegs (b1 b2 : Byte) (s : State) (next : RegIdx → RegIdx → Result) : Result :=
  withReg b1 s fun a => withReg b2 s fun b => next a b

end Sys2Proof.Machine
end

