-- ==== Sys2Proof/Machine/Alu.lean ====
section
/-! DEFINITION. The fourteen arithmetic and logic instructions (spec/41_alu.md R90 to R106). Operands are read as unsigned
numbers, the result is computed exactly and then reduced modulo 256 (R105). -/

namespace Sys2Proof.Machine

/-- A result reduced modulo 256 (00_scope.md R8). -/
def wrap (n : Nat) : Byte := BitVec.ofNat 8 n

/-- A result that may be negative, reduced modulo 256 (00_scope.md R8, section 5.1). -/
def wrapInt (n : Int) : Byte := BitVec.ofInt 8 n

/-- `ALU2(f)` (41_alu.md R90): both registers are read before the write. -/
def alu2 (f : Byte → Byte → Byte) (b1 b2 : Byte) (s : State) : Result :=
  withRegs b1 b2 s fun a b => .next ((s.setReg a (f (s.reg a) (s.reg b))).advance 3)

/-- `ALU1(g)` (41_alu.md R90). -/
def alu1 (g : Byte → Byte) (b1 : Byte) (s : State) : Result :=
  withReg b1 s fun r => .next ((s.setReg r (g (s.reg r))).advance 2)

/-- The shape of DIV and MOD (41_alu.md R101, R102): a zero divisor raises `ArithmeticFault` before any write. -/
def aluDivide (f : Byte → Byte → Byte) (b1 b2 : Byte) (s : State) : Result :=
  withRegs b1 b2 s fun a b =>
    if s.reg b = 0 then raise .arithmeticFault s
    else .next ((s.setReg a (f (s.reg a) (s.reg b))).advance 3)

/-- The result of ADD (41_alu.md R91). -/
def aluAdd (va vb : Byte) : Byte := wrap (va.toNat + vb.toNat)

/-- The result of SUB (41_alu.md R100). -/
def aluSub (va vb : Byte) : Byte := wrapInt ((va.toNat : Int) - (vb.toNat : Int))

/-- The result of MUL (41_alu.md R92): the low 8 bits of the product of unsigned numbers. -/
def aluMul (va vb : Byte) : Byte := wrap (va.toNat * vb.toNat)

/-- The result of AND (41_alu.md R93). -/
def aluAnd (va vb : Byte) : Byte := va &&& vb

/-- The result of OR (41_alu.md R94). -/
def aluOr (va vb : Byte) : Byte := va ||| vb

/-- The result of XOR (41_alu.md R95). -/
def aluXor (va vb : Byte) : Byte := va ^^^ vb

/-- The result of SHL (41_alu.md R103): the count is the whole byte `x[b]`, zeros enter at bit 0. -/
def aluShl (va vb : Byte) : Byte := wrap (va.toNat * 2 ^ vb.toNat)

/-- The result of SHR (41_alu.md R104): the count is the whole byte `x[b]`, zeros enter at bit 7. -/
def aluShr (va vb : Byte) : Byte := wrap (va.toNat / 2 ^ vb.toNat)

/-- The result of DIV (41_alu.md R101) for a divisor that is not 0: the floor of the quotient of unsigned numbers. -/
def aluDiv (va vb : Byte) : Byte := wrap (va.toNat / vb.toNat)

/-- The result of MOD (41_alu.md R102) for a divisor that is not 0: the remainder, below the divisor. -/
def aluMod (va vb : Byte) : Byte := wrap (va.toNat % vb.toNat)

/-- The result of NOT (41_alu.md R96): every bit is inverted. -/
def aluNot (v : Byte) : Byte := wrap (255 - v.toNat)

/-- The result of INC (41_alu.md R98). -/
def aluInc (v : Byte) : Byte := wrap (v.toNat + 1)

/-- The result of DEC (41_alu.md R99). -/
def aluDec (v : Byte) : Byte := wrapInt ((v.toNat : Int) - 1)

/-- ADD (41_alu.md R91). -/
def execAdd (a b : Byte) (s : State) : Result := alu2 aluAdd a b s

/-- SUB (41_alu.md R100). -/
def execSub (a b : Byte) (s : State) : Result := alu2 aluSub a b s

/-- MUL (41_alu.md R92). -/
def execMul (a b : Byte) (s : State) : Result := alu2 aluMul a b s

/-- AND (41_alu.md R93). -/
def execAnd (a b : Byte) (s : State) : Result := alu2 aluAnd a b s

/-- OR (41_alu.md R94). -/
def execOr (a b : Byte) (s : State) : Result := alu2 aluOr a b s

/-- XOR (41_alu.md R95). -/
def execXor (a b : Byte) (s : State) : Result := alu2 aluXor a b s

/-- SHL (41_alu.md R103). -/
def execShl (a b : Byte) (s : State) : Result := alu2 aluShl a b s

/-- SHR (41_alu.md R104). -/
def execShr (a b : Byte) (s : State) : Result := alu2 aluShr a b s

/-- DIV (41_alu.md R101). -/
def execDiv (a b : Byte) (s : State) : Result := aluDivide aluDiv a b s

/-- MOD (41_alu.md R102). -/
def execMod (a b : Byte) (s : State) : Result := aluDivide aluMod a b s

/-- NOT (41_alu.md R96). -/
def execNot (r : Byte) (s : State) : Result := alu1 aluNot r s

/-- INC (41_alu.md R98). -/
def execInc (r : Byte) (s : State) : Result := alu1 aluInc r s

/-- DEC (41_alu.md R99). -/
def execDec (r : Byte) (s : State) : Result := alu1 aluDec r s

/-- CMP (41_alu.md R97): writes `fl` alone. -/
def execCmp (a b : Byte) (s : State) : Result :=
  withRegs a b s fun ra rb => .next ({ s with fl := compareFl (s.reg ra) (s.reg rb) }.advance 3)

end Sys2Proof.Machine
end

