-- ==== Sys2Proof/Machine/Control.lean ====
section
/-! DEFINITION. Control flow and the system instructions: CALL, RET, JMP, the six conditional jumps, NOP, HLT, INT, IRET
(spec/44_control_flow.md R130 to R145). -/

namespace Sys2Proof.Machine

/-- CALL (44_control_flow.md R130): a return address above 255 raises `OutOfRangeAddress` before any change; the target is
read after the push. -/
def execCall (r : Byte) (s : State) : Result :=
  withReg r s fun i =>
    if s.pc.toNat + 2 < Config.memSize then
      withPush (fun _ => BitVec.ofNat 8 (s.pc.toNat + 2)) s fun s2 => .next (s2.jumpTo (s2.reg i))
    else raise .outOfRangeAddress s

/-- RET (44_control_flow.md R131): `SP` is incremented once. -/
def execRet (s : State) : Result :=
  withPopped s fun v => .next (s.jumpTo v).incSp

/-- JMP (44_control_flow.md R132). -/
def execJmp (r : Byte) (s : State) : Result :=
  withReg r s fun i => .next (s.jumpTo (s.reg i))

/-- `Jcc r` (44_control_flow.md R143): the index is checked whether or not the jump is taken. -/
def jumpIf (c : Cond) (r : Byte) (s : State) : Result :=
  withReg r s fun i => .next (if c.taken s.fl then s.jumpTo (s.reg i) else s.advance 2)

/-- JEQ (44_control_flow.md R133). -/
def execJeq (r : Byte) (s : State) : Result := jumpIf .eq r s

/-- JNE (44_control_flow.md R134). -/
def execJne (r : Byte) (s : State) : Result := jumpIf .ne r s

/-- JGT (44_control_flow.md R135). -/
def execJgt (r : Byte) (s : State) : Result := jumpIf .gt r s

/-- JGE (44_control_flow.md R136). -/
def execJge (r : Byte) (s : State) : Result := jumpIf .ge r s

/-- JLT (44_control_flow.md R137). -/
def execJlt (r : Byte) (s : State) : Result := jumpIf .lt r s

/-- JLE (44_control_flow.md R138). -/
def execJle (r : Byte) (s : State) : Result := jumpIf .le r s

/-- NOP (44_control_flow.md R139). -/
def execNop (s : State) : Result := .next (s.advance 1)

/-- HLT (44_control_flow.md R140): `pc` keeps the address of the HLT. -/
def execHlt (s : State) : Result := .next { s with run := .halted }

/-- INT (44_control_flow.md R141): a recognised no-op that steps over its two bytes; its operand is not used (log 7, log 8). -/
def execInt (_r : Option Byte) (s : State) : Result := .next (s.advance 2)

/-- IRET (44_control_flow.md R142): a recognised no-op that steps over its one byte (log 8). -/
def execIret (s : State) : Result := .next (s.advance 1)

end Sys2Proof.Machine
end

