-- ==== Sys2Proof/Machine/DataMove.lean ====
section
/-! DEFINITION. Data movement and output: LDI, LD, ST, PRN, PRA (spec/42_data_move.md R110 to R115), and how an event reads as
text. -/

namespace Sys2Proof.Machine

/-- LDI (42_data_move.md R110): the immediate is used as it stands and is never checked. -/
def execLdi (r imm : Byte) (s : State) : Result :=
  withReg r s fun i => .next ((s.setReg i imm).advance 3)

/-- LD (42_data_move.md R111): `x[b]` holds the address. -/
def execLd (a b : Byte) (s : State) : Result :=
  withRegs a b s fun ra rb =>
    withMemRead s (s.reg rb).toNat fun v => .next ((s.setReg ra v).advance 3)

/-- ST (42_data_move.md R112): `x[a]` holds the address, `x[b]` the value. -/
def execSt (a b : Byte) (s : State) : Result :=
  withRegs a b s fun ra rb =>
    withMemWrite s (s.reg ra).toNat (s.reg rb) fun s1 => .next (s1.advance 3)

/-- PRN (42_data_move.md R113). -/
def execPrn (r : Byte) (s : State) : Result :=
  withReg r s fun i => .next ((s.emit (.num (s.reg i))).advance 2)

/-- PRA (42_data_move.md R114): the raw byte, also above 127. -/
def execPra (r : Byte) (s : State) : Result :=
  withReg r s fun i => .next ((s.emit (.chr (s.reg i))).advance 2)

/-- The text of an event where the spec gives one: a number is its decimal numeral without sign, padding or leading zeros
(42_data_move.md R113), a character up to 127 the ASCII character of that code (R114). Above 127 the spec defines no
character, so there is no text. How an environment lays texts out is not the core's (log 20). -/
def Event.text : Event → Option String
  | .num v => some (Nat.repr v.toNat)
  | .chr v => if v.toNat < 128 then some (String.singleton (Char.ofNat v.toNat)) else none

end Sys2Proof.Machine
end

