-- ==== Sys2Proof/Machine/Stack.lean ====
section
/-! DEFINITION. The stack instructions PUSH and POP (spec/43_stack.md R122, R123). -/

namespace Sys2Proof.Machine

/-- PUSH (43_stack.md R122): `x[r]` is read after the decrement. -/
def execPush (r : Byte) (s : State) : Result :=
  withReg r s fun i => withPush (fun s1 => s1.reg i) s fun s2 => .next (s2.advance 2)

/-- POP (43_stack.md R123): the byte read goes into `x[r]` before `x[7]` is incremented. -/
def execPop (r : Byte) (s : State) : Result :=
  withReg r s fun i => withPopped s fun v => .next ((s.setReg i v).incSp.advance 2)

end Sys2Proof.Machine
end

