-- ==== Sys2Proof/Syntax.lean ====
section
/-! DEFINITION. The instruction set as syntax (spec/30_encoding.md R51, R54; spec/opcode_table.json): the mnemonics, and the
instructions with their operand bytes. One constructor per row of the opcode table, in the table's order. -/

namespace Sys2Proof

/-- The 34 mnemonics (30_encoding.md R54), spelt as the table spells them. -/
inductive Mnemonic where
  | NOP | HLT | RET | IRET | PUSH | POP | PRN | PRA | CALL | INT
  | JMP | JEQ | JNE | JGT | JLT | JLE | JGE | INC | DEC | NOT
  | LDI | LD | ST | ADD | SUB | MUL | DIV | MOD | CMP | AND
  | OR | XOR | SHL | SHR
  deriving DecidableEq, Repr

/-- One instruction with its operand bytes. A register operand is the WHOLE operand byte (30_encoding.md R52): values
above 7 are part of the syntax, because an instruction that holds one is recognised and then raises
`OutOfRangeAddress` (40_dispatch_cycle.md R74). `r`, `a`, `b` are the spec's names of the operand bytes. -/
inductive Instr where
  /-- `NOP` (R139), format Z. -/
  | nop
  /-- `HLT` (R140), format Z. -/
  | hlt
  /-- `RET` (R131), format Z. -/
  | ret
  /-- `IRET` (R142), format Z. -/
  | iret
  /-- `PUSH` (R122), format R. -/
  | push (r : Byte)
  /-- `POP` (R123), format R. -/
  | pop (r : Byte)
  /-- `PRN` (R113), format R. -/
  | prn (r : Byte)
  /-- `PRA` (R114), format R. -/
  | pra (r : Byte)
  /-- `CALL` (R130), format R. -/
  | call (r : Byte)
  /-- `INT r` (R141). The operand byte is not fetched, not checked and not used; it is carried as syntax only, and is
  `none` where the opcode stands in the last cell of memory and no operand byte exists. -/
  | int (r : Option Byte)
  /-- `JMP` (R132), format R. -/
  | jmp (r : Byte)
  /-- `JEQ` (R133), format R. -/
  | jeq (r : Byte)
  /-- `JNE` (R134), format R. -/
  | jne (r : Byte)
  /-- `JGT` (R135), format R. -/
  | jgt (r : Byte)
  /-- `JLT` (R137), format R. -/
  | jlt (r : Byte)
  /-- `JLE` (R138), format R. -/
  | jle (r : Byte)
  /-- `JGE` (R136), format R. -/
  | jge (r : Byte)
  /-- `INC` (R98), format R. -/
  | inc (r : Byte)
  /-- `DEC` (R99), format R. -/
  | dec (r : Byte)
  /-- `NOT` (R96), format R. -/
  | not (r : Byte)
  /-- `LDI` (R110), format RI. -/
  | ldi (r imm : Byte)
  /-- `LD` (R111), format RR. -/
  | ld (a b : Byte)
  /-- `ST` (R112), format RR. -/
  | st (a b : Byte)
  /-- `ADD` (R91), format RR. -/
  | add (a b : Byte)
  /-- `SUB` (R100), format RR. -/
  | sub (a b : Byte)
  /-- `MUL` (R92), format RR. -/
  | mul (a b : Byte)
  /-- `DIV` (R101), format RR. -/
  | div (a b : Byte)
  /-- `MOD` (R102), format RR. -/
  | mod (a b : Byte)
  /-- `CMP` (R97), format RR. -/
  | cmp (a b : Byte)
  /-- `AND` (R93), format RR. -/
  | and (a b : Byte)
  /-- `OR` (R94), format RR. -/
  | or (a b : Byte)
  /-- `XOR` (R95), format RR. -/
  | xor (a b : Byte)
  /-- `SHL` (R103), format RR. -/
  | shl (a b : Byte)
  /-- `SHR` (R104), format RR. -/
  | shr (a b : Byte)
  deriving DecidableEq, Repr

/-- The mnemonic of an instruction. -/
def Instr.mnemonic : Instr → Mnemonic
  | .nop => .NOP
  | .hlt => .HLT
  | .ret => .RET
  | .iret => .IRET
  | .push _ => .PUSH
  | .pop _ => .POP
  | .prn _ => .PRN
  | .pra _ => .PRA
  | .call _ => .CALL
  | .int _ => .INT
  | .jmp _ => .JMP
  | .jeq _ => .JEQ
  | .jne _ => .JNE
  | .jgt _ => .JGT
  | .jlt _ => .JLT
  | .jle _ => .JLE
  | .jge _ => .JGE
  | .inc _ => .INC
  | .dec _ => .DEC
  | .not _ => .NOT
  | .ldi _ _ => .LDI
  | .ld _ _ => .LD
  | .st _ _ => .ST
  | .add _ _ => .ADD
  | .sub _ _ => .SUB
  | .mul _ _ => .MUL
  | .div _ _ => .DIV
  | .mod _ _ => .MOD
  | .cmp _ _ => .CMP
  | .and _ _ => .AND
  | .or _ _ => .OR
  | .xor _ _ => .XOR
  | .shl _ _ => .SHL
  | .shr _ _ => .SHR

end Sys2Proof
end

