-- ==== Sys2Proof/WellFormed.lean ====
section
/-! DEFINITION. Which instructions have an encoding that the spec calls legal: every register operand byte names a register
(spec/30_encoding.md R52, R56: 8..255 are illegal operand values), and an INT has the operand byte its two-byte
format needs (R51, R141). An ill-formed instruction is not refused by the machine: it raises `OutOfRangeAddress`
(INT: it runs). -/

namespace Sys2Proof

/-- The byte names one of `x[0]` .. `x[7]` (30_encoding.md R52). -/
def Byte.isReg (b : Byte) : Bool := decide (b.toNat < Config.numRegs)

/-- The instruction's operand bytes are legal ones of its format. -/
def Instr.wf : Instr → Bool
  | .nop => true
  | .hlt => true
  | .ret => true
  | .iret => true
  | .push r => r.isReg
  | .pop r => r.isReg
  | .prn r => r.isReg
  | .pra r => r.isReg
  | .call r => r.isReg
  | .int r => r.isSome
  | .jmp r => r.isReg
  | .jeq r => r.isReg
  | .jne r => r.isReg
  | .jgt r => r.isReg
  | .jlt r => r.isReg
  | .jle r => r.isReg
  | .jge r => r.isReg
  | .inc r => r.isReg
  | .dec r => r.isReg
  | .not r => r.isReg
  | .ldi r _ => r.isReg
  | .ld a b => a.isReg && b.isReg
  | .st a b => a.isReg && b.isReg
  | .add a b => a.isReg && b.isReg
  | .sub a b => a.isReg && b.isReg
  | .mul a b => a.isReg && b.isReg
  | .div a b => a.isReg && b.isReg
  | .mod a b => a.isReg && b.isReg
  | .cmp a b => a.isReg && b.isReg
  | .and a b => a.isReg && b.isReg
  | .or a b => a.isReg && b.isReg
  | .xor a b => a.isReg && b.isReg
  | .shl a b => a.isReg && b.isReg
  | .shr a b => a.isReg && b.isReg

end Sys2Proof
end

