-- ==== Sys2Proof/Decode.lean ====
section
/-! DEFINITION. The encoding, and the decoder and encoder written from it (spec/30_encoding.md R50 to R60): the formats and
lengths, OPCODE_MAP with its default, the dispatch table as the map's inverse, decode (total on any bytes, rejecting
by name) and encode. Decoder and encoder take the opcode map as an argument, since it is a parameter
(spec/00_scope.md R7); `decode` and `encode` are theirs under the default map. -/

namespace Sys2Proof

/-- The four formats (30_encoding.md R51). -/
inductive Format where
  | Z | R | RR | RI
  deriving DecidableEq, Repr

/-- The format of each mnemonic (30_encoding.md R51, R54). -/
def Mnemonic.format : Mnemonic → Format
  | .NOP | .HLT | .RET | .IRET => .Z
  | .PUSH | .POP | .PRN | .PRA | .CALL | .INT | .JMP | .JEQ | .JNE | .JGT | .JLT | .JLE | .JGE | .INC | .DEC | .NOT => .R
  | .LDI => .RI
  | .LD | .ST | .ADD | .SUB | .MUL | .DIV | .MOD | .CMP | .AND | .OR | .XOR | .SHL | .SHR => .RR

/-- The number of bytes of each format (30_encoding.md R50, R51). -/
def Format.length : Format → Nat
  | .Z => 1
  | .R => 2
  | .RR => 3
  | .RI => 3

/-- The length of an instruction, a fixed property of its mnemonic (30_encoding.md R50). -/
def Instr.length (i : Instr) : Nat := i.mnemonic.format.length

/-- The mnemonics in the order of the opcode table (30_encoding.md R54). -/
def Mnemonic.all : List Mnemonic :=
  [.NOP, .HLT, .RET, .IRET, .PUSH, .POP, .PRN, .PRA, .CALL,
   .INT, .JMP, .JEQ, .JNE, .JGT, .JLT, .JLE, .JGE, .INC,
   .DEC, .NOT, .LDI, .LD, .ST, .ADD, .SUB, .MUL, .DIV,
   .MOD, .CMP, .AND, .OR, .XOR, .SHL, .SHR]

/-- An assignment of opcode bytes to mnemonics (00_scope.md R7). -/
abbrev OpcodeMap := Mnemonic → Byte

/-- The default `OPCODE_MAP` (30_encoding.md R54). PRESUMED by the spec from general knowledge, its source gives no
opcode byte (decision D1; log 1). -/
def opcodeMap : OpcodeMap
  | .NOP => 0x00
  | .HLT => 0x01
  | .RET => 0x11
  | .IRET => 0x13
  | .PUSH => 0x45
  | .POP => 0x46
  | .PRN => 0x47
  | .PRA => 0x48
  | .CALL => 0x50
  | .INT => 0x52
  | .JMP => 0x54
  | .JEQ => 0x55
  | .JNE => 0x56
  | .JGT => 0x57
  | .JLT => 0x58
  | .JLE => 0x59
  | .JGE => 0x5A
  | .INC => 0x65
  | .DEC => 0x66
  | .NOT => 0x69
  | .LDI => 0x82
  | .LD => 0x83
  | .ST => 0x84
  | .ADD => 0xA0
  | .SUB => 0xA1
  | .MUL => 0xA2
  | .DIV => 0xA3
  | .MOD => 0xA4
  | .CMP => 0xA7
  | .AND => 0xA8
  | .OR => 0xAA
  | .XOR => 0xAB
  | .SHL => 0xAC
  | .SHR => 0xAD

/-- The dispatch table: the opcode map read right to left (10_state.md R23). `none` is the distinct case of an
unknown opcode (30_encoding.md R56). -/
def dispatchTable (map : OpcodeMap) (b : Byte) : Option Mnemonic :=
  Mnemonic.all.find? fun m => map m == b

/-- Why bytes are no instruction. -/
inductive DecodeError where
  /-- There is no opcode byte at all: the fetch address is above 255 (40_dispatch_cycle.md R71). -/
  | noOpcode
  /-- The opcode byte is not in the dispatch table (40_dispatch_cycle.md R72, 30_encoding.md R56). -/
  | unrecognizedOpcode (b : Byte)
  /-- An operand byte the format needs is missing: its address is above 255 (40_dispatch_cycle.md R73). -/
  | missingOperand
  deriving DecidableEq, Repr

/-- What decoding answers: an instruction and the bytes after it, or the reason there is none. -/
abbrev Decoded := Except DecodeError (Instr × List Byte)

/-- Takes `b1` (format R; 40_dispatch_cycle.md R73). -/
def takeOne (mk : Byte → Instr) : List Byte → Decoded
  | b1 :: rest => .ok (mk b1, rest)
  | [] => .error .missingOperand

/-- Takes `b1` and then `b2` (formats RR and RI; 40_dispatch_cycle.md R73). -/
def takeTwo (mk : Byte → Byte → Instr) : List Byte → Decoded
  | b1 :: b2 :: rest => .ok (mk b1 b2, rest)
  | _ => .error .missingOperand

/-- INT needs no operand byte to be there (30_encoding.md R60, 44_control_flow.md R141): it steps over one if there is one. -/
def takeInt : List Byte → Decoded
  | b1 :: rest => .ok (.int (some b1), rest)
  | [] => .ok (.int none, [])

/-- The instruction of a recognised mnemonic, its operand bytes taken from those that follow the opcode. -/
def takeOperands (m : Mnemonic) (rest : List Byte) : Decoded :=
  match m with
  | .NOP => .ok (.nop, rest)
  | .HLT => .ok (.hlt, rest)
  | .RET => .ok (.ret, rest)
  | .IRET => .ok (.iret, rest)
  | .PUSH => takeOne .push rest
  | .POP => takeOne .pop rest
  | .PRN => takeOne .prn rest
  | .PRA => takeOne .pra rest
  | .CALL => takeOne .call rest
  | .INT => takeInt rest
  | .JMP => takeOne .jmp rest
  | .JEQ => takeOne .jeq rest
  | .JNE => takeOne .jne rest
  | .JGT => takeOne .jgt rest
  | .JLT => takeOne .jlt rest
  | .JLE => takeOne .jle rest
  | .JGE => takeOne .jge rest
  | .INC => takeOne .inc rest
  | .DEC => takeOne .dec rest
  | .NOT => takeOne .not rest
  | .LDI => takeTwo .ldi rest
  | .LD => takeTwo .ld rest
  | .ST => takeTwo .st rest
  | .ADD => takeTwo .add rest
  | .SUB => takeTwo .sub rest
  | .MUL => takeTwo .mul rest
  | .DIV => takeTwo .div rest
  | .MOD => takeTwo .mod rest
  | .CMP => takeTwo .cmp rest
  | .AND => takeTwo .and rest
  | .OR => takeTwo .or rest
  | .XOR => takeTwo .xor rest
  | .SHL => takeTwo .shl rest
  | .SHR => takeTwo .shr rest

/-- Decodes the first instruction of a list of bytes, lowest address first, in the order of 40_dispatch_cycle.md R79: opcode
there, opcode known, operand bytes there. Register indices are not checked here but by the meanings (R74). -/
def decodeWith (map : OpcodeMap) : List Byte → Decoded
  | [] => .error .noOpcode
  | op :: rest =>
    match dispatchTable map op with
    | none => .error (.unrecognizedOpcode op)
    | some m => takeOperands m rest

/-- The decoder of this machine: `decodeWith` under the default opcode map. -/
def decode (bytes : List Byte) : Decoded := decodeWith opcodeMap bytes

/-- The operand bytes of an instruction in ascending addresses (30_encoding.md R51). -/
def Instr.operands : Instr → List Byte
  | .nop => []
  | .hlt => []
  | .ret => []
  | .iret => []
  | .push r => [r]
  | .pop r => [r]
  | .prn r => [r]
  | .pra r => [r]
  | .call r => [r]
  | .int r => r.toList
  | .jmp r => [r]
  | .jeq r => [r]
  | .jne r => [r]
  | .jgt r => [r]
  | .jlt r => [r]
  | .jle r => [r]
  | .jge r => [r]
  | .inc r => [r]
  | .dec r => [r]
  | .not r => [r]
  | .ldi r imm => [r, imm]
  | .ld a b => [a, b]
  | .st a b => [a, b]
  | .add a b => [a, b]
  | .sub a b => [a, b]
  | .mul a b => [a, b]
  | .div a b => [a, b]
  | .mod a b => [a, b]
  | .cmp a b => [a, b]
  | .and a b => [a, b]
  | .or a b => [a, b]
  | .xor a b => [a, b]
  | .shl a b => [a, b]
  | .shr a b => [a, b]

/-- The bytes of an instruction, lowest address first: opcode, then operands (30_encoding.md R51, 20_memory.md R33). -/
def encodeWith (map : OpcodeMap) (i : Instr) : List Byte := map i.mnemonic :: i.operands

/-- The encoder of this machine: `encodeWith` under the default opcode map. -/
def encode (i : Instr) : List Byte := encodeWith opcodeMap i

/-- The bytes of an instruction of which the opcode table's numbering gives the first `nbits` bits as `w`: bit 0 is the
least significant bit of the first byte, every bit from `nbits` on is 0, and the longest instruction has three bytes
(30_encoding.md R50). -/
def tableBytes (nbits w : Nat) : List Byte :=
  let v := w % 2 ^ nbits
  [BitVec.ofNat 8 v, BitVec.ofNat 8 (v / 2 ^ 8), BitVec.ofNat 8 (v / 2 ^ 16)]

/-- The instruction the decoder reads from a word numbered as spec/opcode_table.json numbers it. -/
def decodeTableWord (nbits w : Nat) : Option Instr :=
  match decode (tableBytes nbits w) with
  | .ok (i, _) => some i
  | .error _ => none

end Sys2Proof
end

