-- ==== Sys2Proof/Machine/Fetch.lean ====
section
/-! DEFINITION. The stages of a step before the handler: which bytes are fetched, what the instruction register latches, and which
fault a decoding error is (spec/40_dispatch_cycle.md R71 to R73, R79). -/

namespace Sys2Proof.Machine

/-- The bytes an instruction at `pc` can consist of: those at `pc`, `pc + 1`, `pc + 2` whose address exists. No instruction
is longer (30_encoding.md R50). Which of them count as fetched is the decoder's: it asks for as many as the format has. -/
def State.fetchWindow (s : State) : List Byte :=
  [s.pc.toNat, s.pc.toNat + 1, s.pc.toNat + 2].filterMap s.byteAt

/-- `ir <- MemRead(pc, 1)`, where the address exists (40_dispatch_cycle.md R71, 10_state.md R21). -/
def State.latchIr (s : State) : State :=
  match s.byteAt s.pc.toNat with
  | some b => { s with ir := b }
  | none => s

/-- The fault a decoding error raises: a missing byte is a fetch above 255 (40_dispatch_cycle.md R71, R73), an opcode with no
entry in the dispatch table an unrecognised one (R72). -/
def faultOfDecodeError : DecodeError → FaultKind
  | .noOpcode => .outOfRangeAddress
  | .unrecognizedOpcode _ => .unrecognizedOpcode
  | .missingOperand => .outOfRangeAddress

end Sys2Proof.Machine
end

