-- ==== Sys2Proof/Machine/Step.lean ====
section
/-! DEFINITION. One step of the machine (spec/40_dispatch_cycle.md R70), and placing an instruction where the next step
fetches it. -/

namespace Sys2Proof.Machine

/-- `Step` (40_dispatch_cycle.md R70): defined when `run = Running`; it fetches, decodes and executes exactly one instruction.
On a halted or faulted machine there is no step (10_state.md R20; log 6). -/
def step (s : State) : Host.Outcome State Fault Refusal :=
  match s.run with
  | .halted => .fault .halted
  | .faulted k _ => .fault (.faulted k)
  | .running =>
    match decode s.fetchWindow with
    | .error e => raise (faultOfDecodeError e) s.latchIr
    | .ok (i, _) => exec i s.latchIr

/-- The state with the instruction of a table word stored at `pc`, three bytes of it (the bits above `nbits` are 0), and
running, so that the next step runs it. A byte whose address would be above 255 has no place. `rh` is not touched: the
fetch does not need it (log 12). -/
def State.withFetchWord (s : State) (nbits w : Nat) : State :=
  { s with mem := s.mem.storeBytes s.pc.toNat (tableBytes nbits w), run := .running }

end Sys2Proof.Machine
end

