-- ==== Sys2Proof/Machine/Load.lean ====
section
/-! DEFINITION. Reset with a program image (spec/70_reset_and_hazards.md R180 to R184). -/

namespace Sys2Proof.Machine

/-- Reset with the image `B[0..N-1]` (70_reset_and_hazards.md R181): memory is the image and then the fill, `rh` is N, everything
else is as `State.reset` has it; nothing of an earlier state survives. An image of more than 256 bytes is refused
before the machine exists (R184). -/
def load (image : List Byte) : Result :=
  if image.length ≤ Config.memSize then
    .next { State.reset with mem := Memory.storeBytes [] 0 image, rh := BitVec.ofNat 9 image.length }
  else .refused (.imageTooLong image.length)

end Sys2Proof.Machine
end

