-- ==== Sys2Proof/Machine/RunLoop.lean ====
section
/-! DEFINITION. Runs (spec/40_dispatch_cycle.md R77, R78): the run under an instruction budget kept by the environment, the
unbounded run as a relation between a state and the one it ends in, and divergence. -/

namespace Sys2Proof.Machine

/-- `RunFuel(s, fuel)` (40_dispatch_cycle.md R78): a state that is not running is left as it is; running out of fuel is not a
fault, the result is then a state still running. -/
def runFuel : Nat → State → State
  | 0, s => s
  | fuel + 1, s =>
    match step s with
    | .next t => runFuel fuel t
    | .fault _ => s
    | .refused _ => s

/-- `Run(s) = t` (40_dispatch_cycle.md R78). `Run` is partial, so it is a relation: from `s` the machine reaches the halted or
faulted state `t` after finitely many steps. -/
def State.runsTo (s t : State) : Prop := t.run ≠ .running ∧ ∃ n, runFuel n s = t

/-- `Run(s)` has no value (40_dispatch_cycle.md R78): after any number of steps the machine is still running. The core never
stops such a run (R77). -/
def State.diverges (s : State) : Prop := ∀ n, (runFuel n s).run = .running

end Sys2Proof.Machine
end

