-- ==== Sys2Proof/Safety.lean ====
section
/-! DEFINITION. What counts as a normal end and as a run gone wrong (spec/60_exceptions.md R169), the invariant every step keeps,
and the words claims use: which instructions hold an illegal register byte, and where and what an instruction stores. -/

namespace Sys2Proof.Machine

/-- The run loop is in `Faulted` (60_exceptions.md R169). -/
def Run.isFaulted : Run → Bool
  | .running => false
  | .halted => false
  | .faulted _ _ => true

/-- A program has COMPLETED only in `Halted` (60_exceptions.md R169). -/
abbrev State.completed (s : State) : Prop := s.run = .halted

/-- A program has GONE WRONG in `Faulted` (60_exceptions.md R169). -/
abbrev State.goneWrong (s : State) : Prop := s.run.isFaulted = true

/-- What holds of every state a run reaches: memory is in canonical form, `pc` is 0..257 (10_state.md R16), `rh` is 0..256
(R19), the snapshot of a fault shows the frozen state (60_exceptions.md R157, R158), a machine that overflowed its stack has
`x[7] = rh` (R154), and one that underflowed has `x[7] = SP_INIT` (R156). -/
structure State.Inv (s : State) : Prop where
  memCanonical : s.mem.wf = true
  pcInRange : s.pc.toNat ≤ 257
  rhInRange : s.rh.toNat ≤ Config.memSize
  snapshotFrozen : ∀ k snap, s.run = .faulted k snap → snap = s.snapshot
  overflowAtHeap : ∀ snap, s.run = .faulted .stackOverflow snap → s.sp.toNat = s.rh.toNat
  underflowAtBase : ∀ snap, s.run = .faulted .stackUnderflow snap → s.sp = spInit

/-- Some operand byte that the format declares a register index names no register (40_dispatch_cycle.md R74). INT's operand
is no such byte (R73, 44_control_flow.md R141). -/
def hasBadIndex : Instr → Bool
  | .int _ => false
  | i => !i.wf

/-- The address an instruction stores to in a state, if its form stores (20_memory.md R38): ST at `x[a]`, PUSH and CALL at
the stack pointer after its decrement. It says where, not whether the store is reached. -/
def storeAddress (i : Instr) (s : State) : Option Nat :=
  match i with
  | .st a _ => (regIndex a).map fun r => (s.reg r).toNat
  | .push _ => some s.decSp.sp.toNat
  | .call _ => some s.decSp.sp.toNat
  | .nop | .hlt | .ret | .iret | .pop _ | .prn _ | .pra _ | .int _ | .jmp _ | .jeq _ | .jne _ | .jgt _ | .jlt _ | .jle _
  | .jge _ | .inc _ | .dec _ | .not _ | .ldi _ _ | .ld _ _ | .add _ _ | .sub _ _ | .mul _ _ | .div _ _ | .mod _ _ | .cmp _ _
  | .and _ _ | .or _ _ | .xor _ _ | .shl _ _ | .shr _ _ => none

/-- The byte an instruction stores at `storeAddress` (20_memory.md R38): ST the register `x[b]`, PUSH its register after the
decrement (43_stack.md R122), CALL the return address (44_control_flow.md R130). It says what, not whether the store is
reached. -/
def storeValue (i : Instr) (s : State) : Option Byte :=
  match i with
  | .st _ b => (regIndex b).map s.reg
  | .push r => (regIndex r).map s.decSp.reg
  | .call _ => some (BitVec.ofNat 8 (s.pc.toNat + 2))
  | .nop | .hlt | .ret | .iret | .pop _ | .prn _ | .pra _ | .int _ | .jmp _ | .jeq _ | .jne _ | .jgt _ | .jlt _ | .jle _
  | .jge _ | .inc _ | .dec _ | .not _ | .ldi _ _ | .ld _ _ | .add _ _ | .sub _ _ | .mul _ _ | .div _ _ | .mod _ _ | .cmp _ _
  | .and _ _ | .or _ _ | .xor _ _ | .shl _ _ | .shr _ _ => none

end Sys2Proof.Machine
end

