-- ==== Sys2Proof/Certificates/Slice0/Obligations.lean ====
section
/-! DEFINITION. The statements about the model. A legal register operand is a byte `b` with `regIndex b = some r`; a statement about
an instruction's result quantifies over all of them, and `BadRegisterByteRaisesOutOfRange` covers every other byte. Where
a clause rests on a decision the spec marks as its own (D<n>), the docstring names it. -/

open Sys2Proof Sys2Proof.Machine

/-! ### Encoding -/

/-- Words written out from 30_encoding.md R54 decode to the instructions they stand for: one of each format and family.
Rests on the spec's default OPCODE_MAP (D1, general knowledge). -/
def Obligations.EncodedWordsDecodeAsTabulated : Prop :=
  decode [0b00000000] = .ok (.nop, []) ∧
  decode [0b00000001] = .ok (.hlt, []) ∧
  decode [0b00010001] = .ok (.ret, []) ∧
  decode [0b01000101, 0b00000011] = .ok (.push 3, []) ∧
  decode [0b01000111, 0b00000000] = .ok (.prn 0, []) ∧
  decode [0b01010000, 0b00000001] = .ok (.call 1, []) ∧
  decode [0b01010010, 0b11111111] = .ok (.int (some 0xFF), []) ∧
  decode [0b01011010, 0b00000010] = .ok (.jge 2, []) ∧
  decode [0b01101001, 0b00000010] = .ok (.not 2, []) ∧
  decode [0b10000010, 0b00000000, 0b00001000] = .ok (.ldi 0 8, []) ∧
  decode [0b10000100, 0b00000100, 0b00000001] = .ok (.st 4 1, []) ∧
  decode [0b10100000, 0b00000000, 0b00000001] = .ok (.add 0 1, []) ∧
  decode [0b10100111, 0b00000000, 0b00000001] = .ok (.cmp 0 1, [])

/-- DECODE INVERTS ENCODE. Under every injective opcode map, decoding the encoding of a well-formed instruction gives it
back, with every operand, and leaves the bytes after it (30_encoding.md sections 1 to 3; 00_scope.md section 4). -/
def Obligations.DecodeInvertsEncode : Prop :=
  ∀ map : OpcodeMap, Function.Injective map → ∀ i : Instr, i.wf = true → ∀ rest : List Byte,
    decodeWith map (encodeWith map i ++ rest) = .ok (i, rest)

/-- Each byte sequence has one meaning: what the decoder reads is exactly what the encoder writes, under every opcode
map. For an INT at the end of the bytes the operand is absent on both sides. -/
def Obligations.EncodeInvertsDecode : Prop :=
  ∀ (map : OpcodeMap) (bytes rest : List Byte) (i : Instr),
    decodeWith map bytes = .ok (i, rest) → encodeWith map i ++ rest = bytes

/-- The length of an instruction is known from its opcode byte alone: whatever bytes follow, if the first byte is the
opcode of `m` and the bytes decode, the instruction is of mnemonic `m` and takes as many bytes as `m`'s format has. The
exception, an INT whose operand byte is not there, rests on INT fetching no operand (30_encoding.md R60, 44_control_flow.md
R141) and on the model's log 7, by which that byte is syntax and may be absent. -/
def Obligations.LengthKnownFromOpcode : Prop :=
  ∀ (map : OpcodeMap), Function.Injective map → ∀ (m : Mnemonic) (bytes rest : List Byte) (i : Instr),
    decodeWith map (map m :: bytes) = .ok (i, rest) →
      i.mnemonic = m ∧ (rest.length + m.format.length = bytes.length + 1 ∨ (i = .int none ∧ bytes = []))

/-! ### Reset and load -/

/-- Load gives the reset state of an image (10_state.md section 10, 70_reset_and_hazards.md section 1): for every image of at
most 256 bytes the machine starts with the image in memory and the fill elsewhere, `rh` its length, `pc` 0, no events,
running; a longer image is refused. The values of `fl`, of the registers and of the fill are the spec's decisions D6,
D7, D8, D9, and the refusal its decision D24. -/
def Obligations.LoadPlacesImageAndResetsTheRest : Prop :=
  (∀ image : List Byte, image.length ≤ 256 → ∃ t, load image = .next t ∧
    t.pc = 0 ∧ t.rh.toNat = image.length ∧ t.run = .running ∧ t.out = [] ∧ t.fl = .none ∧
    t.sp = spInit ∧ (∀ i : RegIdx, i ≠ Config.spIndex → t.reg i = regInit) ∧
    (∀ a, a < 256 → t.byteAt a = some (image.getD a memFill))) ∧
  (∀ image : List Byte, 256 < image.length → load image = .refused (.imageTooLong image.length)) ∧
  load [] = .next State.reset

/-- The invariant holds at reset. -/
def Obligations.ResetMeetsInvariant : Prop := State.reset.Inv

/-- The invariant holds after every load. -/
def Obligations.LoadMeetsInvariant : Prop := ∀ (image : List Byte) (t : State), load image = .next t → t.Inv

/-! ### The cycle -/

/-- A STEP RUNS THE DECODED INSTRUCTION. On a running machine, if the bytes in memory from `pc` on are the encoding of a
well-formed instruction, the step is `exec` of it in the same state with the opcode byte latched into `ir`. -/
def Obligations.StepRunsTheInstructionAtPc : Prop :=
  ∀ (s : State) (i : Instr), s.run = .running → i.wf = true →
    (∀ k (h : k < (encode i).length), s.byteAt (s.pc.toNat + k) = some (encode i)[k]) →
      step s = exec i { s with ir := opcodeMap i.mnemonic }

/-- Step is defined exactly on Running states, and ends in one of three ways: still running, halted (by HLT and nothing
else), or faulted. -/
def Obligations.StepDefinedExactlyWhenRunning : Prop :=
  (∀ s : State, s.run = .running ↔ ∃ t, step s = .next t) ∧
  (∀ s t : State, step s = .next t →
    t.run = .running ∨
    (t.run = .halted ∧ s.byteAt s.pc.toNat = some (opcodeMap .HLT)) ∨
    (∃ k snap, t.run = .faulted k snap))

/-- No instruction is refused, none stops the machine outside the spec's own faults: `exec` answers a next state for every
instruction, well-formed or not, in every state (40_dispatch_cycle.md R70, 70_reset_and_hazards.md R188). That a fault of the
spec is itself a next state is the model's choice (log 6). -/
def Obligations.ExecAlwaysAnswersNext : Prop := ∀ (i : Instr) (s : State), ∃ t, exec i s = .next t

/-- Fetch: above 255 it raises `OutOfRangeAddress` and nothing else happens; otherwise `ir` receives the byte at `pc` and
holds it to the end of the step. A step brings `pc` from 255 or below to above 255 only by advancing over the instruction it
ran. -/
def Obligations.FetchLatchesIrOrRaises : Prop :=
  ∀ s : State, s.run = .running →
    (255 < s.pc.toNat → step s = .next { s with run := .faulted .outOfRangeAddress s.snapshot }) ∧
    (s.pc.toNat ≤ 255 → ∀ t, step s = .next t → t.ir = s.mem.read s.pc.toNat ∧
      (255 < t.pc.toNat → ∃ i rest, decode s.fetchWindow = .ok (i, rest) ∧ t.pc = s.pc + BitVec.ofNat 9 i.length))

/-- `UnrecognizedOpcode` is raised exactly when the byte fetched is the opcode of no mnemonic; then only `run` and `ir`
change, and the snapshot shows the byte and its address. When it is the opcode of `m`, the step goes on with `m`. -/
def Obligations.UnrecognizedOpcodeExactlyWhenUnassigned : Prop :=
  ∀ s : State, s.run = .running →
    ((∃ t snap, step s = .next t ∧ t.run = .faulted .unrecognizedOpcode snap) ↔
      s.pc.toNat ≤ 255 ∧ ∀ m, opcodeMap m ≠ s.mem.read s.pc.toNat) ∧
    (∀ t snap, step s = .next t → t.run = .faulted .unrecognizedOpcode snap →
      t = { s with ir := s.mem.read s.pc.toNat, run := .faulted .unrecognizedOpcode snap } ∧
      snap.pc = s.pc ∧ snap.bytes[0] = some (s.mem.read s.pc.toNat) ∧ snap.regs = s.regs) ∧
    (∀ m i rest, s.pc.toNat ≤ 255 → s.mem.read s.pc.toNat = opcodeMap m → decode s.fetchWindow = .ok (i, rest) →
      i.mnemonic = m ∧ step s = exec i { s with ir := opcodeMap m })

/-- Exactly the 34 bytes of 95_test_vectors.md are assigned; every other byte, whatever follows it, is no instruction. Rests
on the default OPCODE_MAP (D1) and D27. -/
def Obligations.UnassignedBytesAreRejected : Prop :=
  ∀ (b : Byte) (rest : List Byte),
    decode (b :: rest) = .error (.unrecognizedOpcode b) ↔
      b ∉ ([0x00, 0x01, 0x11, 0x13, 0x45, 0x46, 0x47, 0x48, 0x50, 0x52, 0x54, 0x55, 0x56, 0x57, 0x58, 0x59, 0x5A] ++
        [0x65, 0x66, 0x69, 0x82, 0x83, 0x84, 0xA0, 0xA1, 0xA2, 0xA3, 0xA4, 0xA7, 0xA8, 0xAA, 0xAB, 0xAC, 0xAD] : List Byte)

/-- A register operand is the whole byte: 0..7 name the registers, and any other value in a register operand of any
instruction makes it raise `OutOfRangeAddress` before it changes any state. INT has no register operand that is
checked. -/
def Obligations.BadRegisterByteRaisesOutOfRange : Prop :=
  (∀ b : Byte, ∀ r : RegIdx, regIndex b = some r ↔ b.toNat = r.val) ∧
  (∀ (i : Instr) (s : State), hasBadIndex i = true →
    exec i s = .next { s with run := .faulted .outOfRangeAddress s.snapshot })

/-- `OutOfRangeAddress` happens in exactly the five cases of 60_exceptions.md section 2: (a) opcode fetch above 255; (b) an
instruction other than INT with an operand byte at 255; (c) a three-byte instruction at 254; (d) a register operand
above 7; (e) CALL at 254. Rests on the spec's decisions D10, D11, D18. -/
def Obligations.OutOfRangeExactlyInFiveCases : Prop :=
  ∀ s : State, s.run = .running →
    ((∃ t snap, step s = .next t ∧ t.run = .faulted .outOfRangeAddress snap) ↔
      255 < s.pc.toNat ∨
      (∃ m : Mnemonic, s.pc.toNat = 255 ∧ s.mem.read 255 = opcodeMap m ∧ m ≠ .INT ∧ 2 ≤ m.format.length) ∨
      (∃ m : Mnemonic, s.pc.toNat = 254 ∧ s.mem.read 254 = opcodeMap m ∧ m.format.length = 3) ∨
      (∃ i rest, decode s.fetchWindow = .ok (i, rest) ∧ hasBadIndex i = true) ∨
      (∃ r rest, s.pc.toNat = 254 ∧ decode s.fetchWindow = .ok (.call r, rest)))

/-! ### Arithmetic and logic: results -/

/-- ADD, SUB and MUL: the sum, difference and product modulo 256 go into `x[a]`, `pc` advances by 3, nothing else changes.
The wrap is the spec's decision D5. -/
def Obligations.AddSubMulResults : Prop :=
  ∀ (s : State) (b1 b2 : Byte) (a b : RegIdx), regIndex b1 = some a → regIndex b2 = some b →
    exec (.add b1 b2) s = .next { s with regs := s.regs.set a (s.reg a + s.reg b), pc := s.pc + 3 } ∧
    exec (.sub b1 b2) s = .next { s with regs := s.regs.set a (s.reg a - s.reg b), pc := s.pc + 3 } ∧
    exec (.mul b1 b2) s = .next { s with regs := s.regs.set a (s.reg a * s.reg b), pc := s.pc + 3 }

/-- DIV and MOD: with a divisor that is not 0 the unsigned quotient and remainder go into `x[a]` and `pc` advances by 3. With
divisor 0 both raise `ArithmeticFault`, and no other state has changed. Floor division is the spec's decision D15. -/
def Obligations.DivModResults : Prop :=
  ∀ (s : State) (b1 b2 : Byte) (a b : RegIdx), regIndex b1 = some a → regIndex b2 = some b →
    (s.reg b ≠ 0 → ∃ q r : Byte,
      exec (.div b1 b2) s = .next { s with regs := s.regs.set a q, pc := s.pc + 3 } ∧
      exec (.mod b1 b2) s = .next { s with regs := s.regs.set a r, pc := s.pc + 3 } ∧
      (s.reg a).toNat = (s.reg b).toNat * q.toNat + r.toNat ∧ r.toNat < (s.reg b).toNat) ∧
    (s.reg b = 0 →
      exec (.div b1 b2) s = .next { s with run := .faulted .arithmeticFault s.snapshot } ∧
      exec (.mod b1 b2) s = .next { s with run := .faulted .arithmeticFault s.snapshot })

/-- AND, OR and XOR act bit by bit: bit `k` of the result in `x[a]` is the conjunction, disjunction or difference of bit `k`
of the two old values; `pc` advances by 3 and nothing else changes. -/
def Obligations.AndOrXorResults : Prop :=
  ∀ (s : State) (b1 b2 : Byte) (a b : RegIdx), regIndex b1 = some a → regIndex b2 = some b →
    ∃ u v w : Byte,
      exec (.and b1 b2) s = .next { s with regs := s.regs.set a u, pc := s.pc + 3 } ∧
      exec (.or b1 b2) s = .next { s with regs := s.regs.set a v, pc := s.pc + 3 } ∧
      exec (.xor b1 b2) s = .next { s with regs := s.regs.set a w, pc := s.pc + 3 } ∧
      ∀ k : Nat, k < 8 →
        u.getLsbD k = ((s.reg a).getLsbD k && (s.reg b).getLsbD k) ∧
        v.getLsbD k = ((s.reg a).getLsbD k || (s.reg b).getLsbD k) ∧
        w.getLsbD k = ((s.reg a).getLsbD k != (s.reg b).getLsbD k)

/-- SHL and SHR shift by the whole byte `x[b]`, zeros entering at bit 0 and at bit 7, bits past the end lost; a count of 8 or
more gives 0; `pc` advances by 3 and nothing else changes. Rests on the spec's decision D16. -/
def Obligations.ShiftResults : Prop :=
  ∀ (s : State) (b1 b2 : Byte) (a b : RegIdx), regIndex b1 = some a → regIndex b2 = some b →
    ∃ u v : Byte,
      exec (.shl b1 b2) s = .next { s with regs := s.regs.set a u, pc := s.pc + 3 } ∧
      exec (.shr b1 b2) s = .next { s with regs := s.regs.set a v, pc := s.pc + 3 } ∧
      (∀ k : Nat, k < 8 →
        u.getLsbD k = (decide ((s.reg b).toNat ≤ k) && (s.reg a).getLsbD (k - (s.reg b).toNat)) ∧
        v.getLsbD k = (s.reg a).getLsbD (k + (s.reg b).toNat)) ∧
      (8 ≤ (s.reg b).toNat → u = 0 ∧ v = 0)

/-- NOT inverts every bit, INC adds 1 and DEC subtracts 1 modulo 256; `pc` advances by 2 and nothing else changes. The wrap
is the spec's decision D5. -/
def Obligations.NotIncDecResults : Prop :=
  ∀ (s : State) (b1 : Byte) (r : RegIdx), regIndex b1 = some r →
    exec (.not b1) s = .next { s with regs := s.regs.set r (~~~ s.reg r), pc := s.pc + 2 } ∧
    exec (.inc b1) s = .next { s with regs := s.regs.set r (s.reg r + 1), pc := s.pc + 2 } ∧
    exec (.dec b1) s = .next { s with regs := s.regs.set r (s.reg r - 1), pc := s.pc + 2 }

/-- CMP writes exactly one of EQ, LT, GT into `fl`, by the unsigned order of the two registers, and changes nothing else but
`pc`; a register compared with itself is always EQ. -/
def Obligations.CmpSetsFlagByUnsignedOrder : Prop :=
  ∀ (s : State) (b1 b2 : Byte) (a b : RegIdx), regIndex b1 = some a → regIndex b2 = some b →
    ∃ f : Fl, exec (.cmp b1 b2) s = .next { s with fl := f, pc := s.pc + 3 } ∧
      (f = .eq ↔ (s.reg a).toNat = (s.reg b).toNat) ∧
      (f = .lt ↔ (s.reg a).toNat < (s.reg b).toNat) ∧
      (f = .gt ↔ (s.reg b).toNat < (s.reg a).toNat) ∧
      f ≠ .none ∧ (a = b → f = .eq)

/-! ### Data movement and output: results -/

/-- LDI puts its second operand byte, whatever it is, into the register; LD puts there the byte of memory at the address in
the second register; `pc` advances by 3 and nothing else changes. Neither data access can fault. -/
def Obligations.LoadInstructionResults : Prop :=
  (∀ (s : State) (b1 imm : Byte) (r : RegIdx), regIndex b1 = some r →
    exec (.ldi b1 imm) s = .next { s with regs := s.regs.set r imm, pc := s.pc + 3 }) ∧
  (∀ (s : State) (b1 b2 : Byte) (a b : RegIdx), regIndex b1 = some a → regIndex b2 = some b →
    exec (.ld b1 b2) s =
      .next { s with regs := s.regs.set a (s.mem.read (s.reg b).toNat), pc := s.pc + 3 })

/-- ST stores the value of the second register at the address in the first: that cell then reads as the value, every other
cell reads as before, `pc` advances by 3, nothing else changes, and memory stays in canonical form. -/
def Obligations.StStoresOneByte : Prop :=
  ∀ (s : State) (b1 b2 : Byte) (a b : RegIdx), s.mem.wf = true → regIndex b1 = some a → regIndex b2 = some b →
    ∃ m : Memory, exec (.st b1 b2) s = .next { s with mem := m, pc := s.pc + 3 } ∧
      m.wf = true ∧ m.read (s.reg a).toNat = s.reg b ∧ ∀ c, c ≠ (s.reg a).toNat → m.read c = s.mem.read c

/-- PRN appends `Num(x[r])` and PRA appends `Chr(x[r])` to `out`, for every value of the register; `pc` advances by 2 and
nothing else changes. That PRA emits the raw byte above 127 is the spec's decision D21. -/
def Obligations.PrintInstructionsAppendEvent : Prop :=
  ∀ (s : State) (b1 : Byte) (r : RegIdx), regIndex b1 = some r →
    exec (.prn b1) s = .next { s with out := s.out ++ [.num (s.reg r)], pc := s.pc + 2 } ∧
    exec (.pra b1) s = .next { s with out := s.out ++ [.chr (s.reg r)], pc := s.pc + 2 }

/-! ### Stack: results -/

/-- PUSH. Unless the decremented stack pointer equals `rh`, it is stored in `x[7]`, the register's value (for `R7` the
DECREMENTED one) goes to the cell it addresses and no other cell changes. If it equals `rh`, `StackOverflow` is raised
with the decrement in effect and memory and `pc` unchanged. Rests on D13, D14, D19, D32. -/
def Obligations.PushStoresOrOverflows : Prop :=
  ∀ (s : State) (b1 : Byte) (r : RegIdx), s.mem.wf = true → regIndex b1 = some r →
    ((s.sp - 1).toNat ≠ s.rh.toNat → ∃ m : Memory,
      exec (.push b1) s = .next { s with regs := s.regs.set Config.spIndex (s.sp - 1), mem := m, pc := s.pc + 2 } ∧
      m.wf = true ∧ m.read (s.sp - 1).toNat = (if r = Config.spIndex then s.sp - 1 else s.reg r) ∧
      ∀ c, c ≠ (s.sp - 1).toNat → m.read c = s.mem.read c) ∧
    ((s.sp - 1).toNat = s.rh.toNat → ∃ snap : Snapshot,
      exec (.push b1) s =
        .next { s with regs := s.regs.set Config.spIndex (s.sp - 1), run := .faulted .stackOverflow snap } ∧
      snap.pc = s.pc ∧ snap.regs = s.regs.set Config.spIndex (s.sp - 1))

/-- POP. Unless `x[7]` is SP_INIT, the byte on top of the stack goes into the register and `x[7]` is incremented (for `R7` the
byte just loaded is). If it is, `StackUnderflow` is raised and nothing else changes. Rests on D12, D13, D14. -/
def Obligations.PopLoadsOrUnderflows : Prop :=
  ∀ (s : State) (b1 : Byte) (r : RegIdx), regIndex b1 = some r →
    (s.sp ≠ spInit → r ≠ Config.spIndex → exec (.pop b1) s = .next
      { s with regs := (s.regs.set r (s.mem.read s.sp.toNat)).set Config.spIndex (s.sp + 1), pc := s.pc + 2 }) ∧
    (s.sp ≠ spInit → r = Config.spIndex → exec (.pop b1) s = .next
      { s with regs := s.regs.set Config.spIndex (s.mem.read s.sp.toNat + 1), pc := s.pc + 2 }) ∧
    (s.sp = spInit → exec (.pop b1) s = .next { s with run := .faulted .stackUnderflow s.snapshot })

/-- Push then pop is the identity on the stack pointer and copies the value, and every register but the destination is as
before; under the conditions 43_stack.md gives. -/
def Obligations.PushThenPopCopies : Prop :=
  ∀ (s : State) (b1 b2 : Byte) (r r' : RegIdx), s.mem.wf = true →
    regIndex b1 = some r → regIndex b2 = some r' → r ≠ Config.spIndex → r' ≠ Config.spIndex →
    (s.sp - 1).toNat ≠ s.rh.toNat → s.sp - 1 ≠ spInit →
      ∃ t u, exec (.push b1) s = .next t ∧ exec (.pop b2) t = .next u ∧
        u.reg r' = s.reg r ∧ u.sp = s.sp ∧ (∀ j, j ≠ r' → u.reg j = s.reg j) ∧ u.pc = s.pc + 4

/-- Repeated pushes overflow at the exact push that would collide with the heap boundary, never one early or late: with
`x[7]` above `rh`, `x[7] - rh - 1` pushes run and the next one raises `StackOverflow`, memory at `rh` unchanged. -/
def Obligations.PushesOverflowAtTheExactPush : Prop :=
  ∀ (s : State) (b : Byte) (r : RegIdx), s.run = .running → regIndex b = some r → s.rh.toNat < s.sp.toNat →
    ∃ f : Nat → State, f 0 = s ∧
      (∀ k, k < s.sp.toNat - s.rh.toNat - 1 → exec (.push b) (f k) = .next (f (k + 1)) ∧ (f (k + 1)).run = .running ∧
        (f (k + 1)).sp.toNat = s.sp.toNat - (k + 1)) ∧
      ∃ t snap, exec (.push b) (f (s.sp.toNat - s.rh.toNat - 1)) = .next t ∧ t.run = .faulted .stackOverflow snap ∧
        t.sp.toNat = s.rh.toNat ∧ t.byteAt s.rh.toNat = s.byteAt s.rh.toNat

/-! ### Control flow: results -/

/-- CALL. Where `pc + 2` fits a byte and the push does not overflow, the return address `pc + 2` lies on the stack and `pc` is
the register's value after the push (for `R7` the decremented stack pointer). An overflow leaves the decrement and
nothing else; a return address above 255 raises `OutOfRangeAddress` before any change. Rests on D11, D14, D19. -/
def Obligations.CallPushesReturnAddressOrFaults : Prop :=
  ∀ (s : State) (b1 : Byte) (r : RegIdx), s.mem.wf = true → regIndex b1 = some r →
    (s.pc.toNat + 2 ≤ 255 → (s.sp - 1).toNat ≠ s.rh.toNat → ∃ m : Memory,
      exec (.call b1) s = .next { s with
        regs := s.regs.set Config.spIndex (s.sp - 1)
        mem := m
        pc := (if r = Config.spIndex then s.sp - 1 else s.reg r).setWidth 9 } ∧
      m.wf = true ∧ (m.read (s.sp - 1).toNat).toNat = s.pc.toNat + 2 ∧
      ∀ c, c ≠ (s.sp - 1).toNat → m.read c = s.mem.read c) ∧
    (s.pc.toNat + 2 ≤ 255 → (s.sp - 1).toNat = s.rh.toNat → ∃ snap : Snapshot,
      exec (.call b1) s =
        .next { s with regs := s.regs.set Config.spIndex (s.sp - 1), run := .faulted .stackOverflow snap } ∧
      snap.pc = s.pc ∧ snap.regs = s.regs.set Config.spIndex (s.sp - 1)) ∧
    (255 < s.pc.toNat + 2 → exec (.call b1) s = .next { s with run := .faulted .outOfRangeAddress s.snapshot })

/-- RET. Unless `x[7]` is SP_INIT, `pc` is the byte on top of the stack and `x[7]` is incremented once; memory and everything
else is unchanged. If it is, `StackUnderflow` is raised and nothing else changes. Rests on D12. -/
def Obligations.RetPopsPcOrUnderflows : Prop :=
  ∀ s : State,
    (s.sp ≠ spInit → exec .ret s = .next
      { s with regs := s.regs.set Config.spIndex (s.sp + 1), pc := (s.mem.read s.sp.toNat).setWidth 9 }) ∧
    (s.sp = spInit → exec .ret s = .next { s with run := .faulted .stackUnderflow s.snapshot })

/-- CALL followed eventually by RET resumes at the instruction after the CALL, at any nesting depth: whatever the subroutine did,
if a RET executes in a state `v` whose stack pointer is the one the CALL left and whose cell there is as the CALL left it,
`pc` is the CALL's plus 2, the stack pointer is the one before the CALL, and the RET leaves memory and the other registers
as `v` has them. -/
def Obligations.RetResumesAfterCall : Prop :=
  ∀ (s t v : State) (b1 : Byte) (r : RegIdx), s.mem.wf = true → regIndex b1 = some r → s.pc.toNat + 2 ≤ 255 →
    (s.sp - 1).toNat ≠ s.rh.toNat → s.sp - 1 ≠ spInit → exec (.call b1) s = .next t →
    v.sp = t.sp → v.mem.read t.sp.toNat = t.mem.read t.sp.toNat →
      ∃ u, exec .ret v = .next u ∧ u.pc = s.pc + 2 ∧ u.sp = s.sp ∧ u.mem = v.mem ∧
        ∀ j, j ≠ Config.spIndex → u.reg j = v.reg j

/-- JMP sets `pc` to the register's value and changes nothing else: every byte is a legal target, also an unaligned one. -/
def Obligations.JmpSetsPc : Prop :=
  ∀ (s : State) (b1 : Byte) (r : RegIdx), regIndex b1 = some r →
    ∃ t, exec (.jmp b1) s = .next t ∧ t.pc.toNat = (s.reg r).toNat ∧ t = { s with pc := t.pc }

/-- The six conditional jumps, cell by cell of the table of 44_control_flow.md R143: taken, a jump does what JMP does; not taken, it
advances `pc` by exactly 2 and changes nothing else. In the state `None` only JNE is taken. The operand is fetched and its
index checked either way. -/
def Obligations.ConditionalJumpsFollowTable : Prop :=
  (∀ (s : State) (b1 : Byte) (r : RegIdx), regIndex b1 = some r →
    exec (.jeq b1) s = (match s.fl with
      | .eq => exec (.jmp b1) s
      | .none | .lt | .gt => .next { s with pc := s.pc + 2 }) ∧
    exec (.jne b1) s = (match s.fl with
      | .none | .lt | .gt => exec (.jmp b1) s
      | .eq => .next { s with pc := s.pc + 2 }) ∧
    exec (.jgt b1) s = (match s.fl with
      | .gt => exec (.jmp b1) s
      | .none | .lt | .eq => .next { s with pc := s.pc + 2 }) ∧
    exec (.jge b1) s = (match s.fl with
      | .gt | .eq => exec (.jmp b1) s
      | .none | .lt => .next { s with pc := s.pc + 2 }) ∧
    exec (.jlt b1) s = (match s.fl with
      | .lt => exec (.jmp b1) s
      | .none | .gt | .eq => .next { s with pc := s.pc + 2 }) ∧
    exec (.jle b1) s = (match s.fl with
      | .lt | .eq => exec (.jmp b1) s
      | .none | .gt => .next { s with pc := s.pc + 2 }) ∧
    exec (.jmp b1) s = .next { s with pc := (s.reg r).setWidth 9 }) ∧
  (∀ (s : State) (b1 : Byte), regIndex b1 = none →
    ∀ i ∈ [Instr.jeq b1, .jne b1, .jgt b1, .jge b1, .jlt b1, .jle b1],
      exec i s = .next { s with run := .faulted .outOfRangeAddress s.snapshot }) ∧
  (∀ (s : State), s.run = .running → s.pc = 255 →
    ∀ m ∈ [Mnemonic.JEQ, .JNE, .JGT, .JGE, .JLT, .JLE], s.mem.read 255 = opcodeMap m →
      ∃ t snap, step s = .next t ∧ t.run = .faulted .outOfRangeAddress snap)

/-- NOP, INT and IRET only advance `pc`, by 1, 2 and 1, whatever INT's operand is; HLT only sets `run` to `Halted` and keeps
`pc`. That INT and IRET are no-ops of these lengths is the spec's decision D4 and D2, that HLT keeps `pc` its decision
D17. -/
def Obligations.NopIntIretHltResults : Prop :=
  ∀ (s : State) (o : Option Byte),
    exec .nop s = .next { s with pc := s.pc + 1 } ∧
    exec (.int o) s = .next { s with pc := s.pc + 2 } ∧
    exec .iret s = .next { s with pc := s.pc + 1 } ∧
    exec .hlt s = .next { s with run := .halted }

/-! ### Frames, over all instructions -/

/-- REGISTER FRAME. Of the eight registers an instruction changes only its destination (`x[a]` for the two-operand ALU
instructions and LD, `x[r]` for NOT, INC, DEC, LDI and POP) and, for PUSH, POP, CALL and RET, `x[7]`; CMP, ST, PRN, PRA,
the jumps, NOP, HLT, INT and IRET change none. This holds also where the instruction ends in a fault. -/
def Obligations.RegistersChangeOnlyAsTabulated : Prop :=
  ∀ (i : Instr) (s t : State) (j : RegIdx), exec i s = .next t → t.reg j ≠ s.reg j →
    (match i with
      | .add a _ | .sub a _ | .mul a _ | .div a _ | .mod a _ | .and a _ | .or a _ | .xor a _ | .shl a _ | .shr a _ | .ld a _ =>
        regIndex a = some j
      | .not r | .inc r | .dec r | .ldi r _ => regIndex r = some j
      | .pop r => regIndex r = some j ∨ j = Config.spIndex
      | .push _ | .call _ | .ret => j = Config.spIndex
      | _ => False)

/-- MEMORY FRAME. ST changes at most the cell its first register addresses, PUSH and CALL at most the cell the decremented
stack pointer addresses (where they overflow, none); no other instruction changes a byte of memory. -/
def Obligations.MemoryChangesOnlyAtStoreAddress : Prop :=
  ∀ (i : Instr) (s t : State) (a : Nat), exec i s = .next t → storeAddress i s ≠ some a → t.byteAt a = s.byteAt a

/-- FLAG FRAME. `fl` is written by CMP only and read by the six conditional jumps only: any other instruction run with another
`fl` does the same to everything else, and a faulted state's snapshot does not show `fl`. CMP always writes one of EQ, LT,
GT, so `fl` never returns to `None`. -/
def Obligations.FlagsWrittenByCmpReadByJumps : Prop :=
  (∀ (i : Instr) (s t : State), exec i s = .next t → t.fl ≠ s.fl → ∃ a b, i = .cmp a b ∧ t.fl ≠ .none) ∧
  (∀ (s t : State), step s = .next t → s.fl ≠ .none → t.fl ≠ .none) ∧
  (∀ (i : Instr) (s t : State) (f : Fl),
    i.mnemonic ∉ [Mnemonic.JEQ, .JNE, .JGT, .JGE, .JLT, .JLE] → exec i s = .next t →
      ∃ t', exec i { s with fl := f } = .next t' ∧ { t' with fl := t.fl } = t ∧
        ((∃ a b, i = .cmp a b ∧ t'.run = .running) → s.run = .running → t'.fl = t.fl)) ∧
  (∀ (s : State) (f : Fl), ({ s with fl := f } : State).snapshot = s.snapshot)

/-- `rh` and `ir` are written by no instruction, and `rh` by no step, so it keeps its value for the whole run. -/
def Obligations.HeapBoundaryIsConstant : Prop :=
  (∀ (i : Instr) (s t : State), exec i s = .next t → t.rh = s.rh ∧ t.ir = s.ir) ∧
  (∀ (n : Nat) (s : State), (runFuel n s).rh = s.rh)

/-- OUTPUT FRAME. Only PRN and PRA append to `out`, each one event; an instruction that faults emits nothing; nothing ever
removes or reorders events, and in `n` steps at most `n` are appended. -/
def Obligations.OutputIsAppendOnly : Prop :=
  (∀ (i : Instr) (s t : State), exec i s = .next t →
    t.out = s.out ∨
    (∃ r v, i = .prn r ∧ t.out = s.out ++ [.num v] ∧ t.run = s.run) ∨
    (∃ r v, i = .pra r ∧ t.out = s.out ++ [.chr v] ∧ t.run = s.run)) ∧
  (∀ (n : Nat) (s : State), ∃ es : List Event, (runFuel n s).out = s.out ++ es ∧ es.length ≤ n)

/-- The program counter frame: an instruction that leaves the machine running sets `pc` to `pc` plus its length or, for CALL,
RET and the jumps alone, to a byte; HLT and every fault leave `pc` as it was. -/
def Obligations.PcAdvancesByLengthOrJumps : Prop :=
  ∀ (i : Instr) (s t : State), s.run = .running → exec i s = .next t →
    (t.run = .running →
      t.pc = s.pc + BitVec.ofNat 9 i.length ∨
      (t.pc.toNat ≤ 255 ∧ i.mnemonic ∈ [Mnemonic.CALL, .RET, .JMP, .JEQ, .JNE, .JGT, .JGE, .JLT, .JLE])) ∧
    (t.run ≠ .running → t.pc = s.pc)

/-! ### Faults -/

/-- State at a fault: every fault but `StackOverflow` leaves everything but `run` and `ir` as it was before the fetch, and
`StackOverflow` leaves in addition the stack pointer decremented to `rh`. The snapshot shows the state it leaves. Rests
on D19 and D20. -/
def Obligations.FaultLeavesStateFrozen : Prop :=
  ∀ (s t : State) (k : FaultKind) (snap : Snapshot), step s = .next t → t.run = .faulted k snap →
    (k ≠ .stackOverflow → t = { s with ir := t.ir, run := .faulted k s.snapshot }) ∧
    (k = .stackOverflow →
      t = { s with ir := t.ir, regs := s.regs.set Config.spIndex (s.sp - 1), run := .faulted k snap } ∧
      t.sp.toNat = s.rh.toNat) ∧
    snap.pc = t.pc ∧ snap.regs = t.regs ∧
    ∀ n (h : n < 3), snap.bytes[n] = if t.pc.toNat + n ≤ 255 then some (t.mem.read (t.pc.toNat + n)) else none

/-- `StackOverflow` is raised by PUSH and CALL and by nothing else, exactly when the operand is legal, a CALL's return address
fits, and the decremented stack pointer equals `rh`; memory and `pc` are unchanged and `x[7]` holds the decremented
value. That a CALL whose return address does not fit raises another fault first is the spec's decision D11 (44_control_flow.md
R130; log 10). -/
def Obligations.StackOverflowExactlyAtHeapBoundary : Prop :=
  ∀ (i : Instr) (s t : State), s.run = .running → exec i s = .next t →
    ((∃ snap, t.run = .faulted .stackOverflow snap) ↔
      (s.sp - 1).toNat = s.rh.toNat ∧
        ∃ b r, regIndex b = some r ∧ (i = .push b ∨ (i = .call b ∧ s.pc.toNat + 2 ≤ 255))) ∧
    (∀ snap, t.run = .faulted .stackOverflow snap →
      t.sp = s.sp - 1 ∧ t.sp.toNat = t.rh.toNat ∧ t.mem = s.mem ∧ t.pc = s.pc)

/-- `StackUnderflow` is raised by POP and RET and by nothing else, exactly when POP's operand is legal and `x[7]` is SP_INIT;
nothing else changes. Rests on the spec's decision D12. -/
def Obligations.StackUnderflowExactlyWhenEmpty : Prop :=
  ∀ (i : Instr) (s t : State), s.run = .running → exec i s = .next t →
    ((∃ snap, t.run = .faulted .stackUnderflow snap) ↔
      s.sp = spInit ∧ (i = .ret ∨ ∃ b r, regIndex b = some r ∧ i = .pop b)) ∧
    (∀ snap, t.run = .faulted .stackUnderflow snap → t = { s with run := .faulted .stackUnderflow s.snapshot })

/-- `ArithmeticFault` is raised by DIV and MOD and by nothing else, exactly when the second register holds 0; nothing else
changes. No overflow and no shift count raises it. -/
def Obligations.ArithmeticFaultExactlyOnZeroDivisor : Prop :=
  ∀ (i : Instr) (s t : State), s.run = .running → exec i s = .next t →
    ((∃ snap, t.run = .faulted .arithmeticFault snap) ↔
      ∃ b1 b2 a b, regIndex b1 = some a ∧ regIndex b2 = some b ∧ s.reg b = 0 ∧ (i = .div b1 b2 ∨ i = .mod b1 b2)) ∧
    (∀ snap, t.run = .faulted .arithmeticFault snap → t = { s with run := .faulted .arithmeticFault s.snapshot })

/-- `Halted` and `Faulted` are absorbing: there is no step, and a run of any length stays where it is. -/
def Obligations.HaltedAndFaultedAreAbsorbing : Prop :=
  ∀ s : State, s.run ≠ .running → (∀ t, step s ≠ .next t) ∧ ∀ n, runFuel n s = s

/-! ### Memory -/

/-- Equal memories are equal data: two memories in canonical form that read the same at every address are the same list. -/
def Obligations.CanonicalMemoryDeterminedByReads : Prop :=
  ∀ m m' : Memory, m.wf = true → m'.wf = true → (∀ a, a < 256 → m.read a = m'.read a) → m = m'

/-- A store is seen by the next fetch and by every later one, opcode and operand bytes alike (20_memory.md section 8). If a step
runs ST, PUSH or CALL without a fault, the instruction is the one decoded before its store, whichever byte it overwrites;
and in the next state, or in any later state in which that cell has not changed, the stored byte is what is fetched at its
address, as the byte `k` of the instruction at `pc`. If it is the next opcode, the next step latches it into `ir`. -/
def Obligations.StoreSeenByNextFetch : Prop :=
  ∀ (s t : State) (i : Instr) (rest : List Byte) (a : Nat) (v : Byte), s.mem.wf = true →
    decode s.fetchWindow = .ok (i, rest) → storeAddress i s = some a → storeValue i s = some v →
    step s = .next t → t.run = .running →
      step s = exec i { s with ir := opcodeMap i.mnemonic } ∧
      (∀ w : State, w.byteAt a = t.byteAt a → ∀ k, k < 3 → w.pc.toNat + k = a → w.fetchWindow[k]? = some v) ∧
      (∀ u, t.pc.toNat = a → step t = .next u → u.ir = v)

/-! ### Whole runs -/

/-- THE INVARIANT IS KEPT BY EVERY STEP, from every state that has it: memory in canonical form, `pc` at most 257, `rh` at most
256, a fault's snapshot is that of the frozen state, and the stack pointer of an overflowed or underflowed machine is at the
boundary the fault names. The bounds rest on the spec's decisions D10 and D32, the snapshot on D19 and D20, the underflow on
D12 (logs 10, 14, 19); the canonical form of memory is the model's (log 4). -/
def Obligations.EveryStepKeepsInvariant : Prop := ∀ s t : State, s.Inv → step s = .next t → t.Inv

/-- The instruction register is no input: a step from a state with another `ir` gives the same next state, but that `ir` keeps its
old value where nothing can be fetched. -/
def Obligations.InstructionRegisterIsNoInput : Prop :=
  ∀ (s t : State) (b : Byte), step s = .next t →
    step { s with ir := b } = .next { t with ir := if s.pc.toNat ≤ 255 then t.ir else b }

/-- The run relation composes: `m + n` steps are `m` steps and then `n` steps, and one more unit of budget is one more step
of a running machine. -/
def Obligations.RunFuelComposes : Prop :=
  (∀ (m n : Nat) (s : State), runFuel (m + n) s = runFuel n (runFuel m s)) ∧
  (∀ (n : Nat) (s t : State), step s = .next t → runFuel (n + 1) s = runFuel n t)

/-- A running machine whose memory from `pc` to 255 reads as NOP opcodes slides to `pc = 256`, changing nothing but `pc` and
`ir`, and then faults with `OutOfRangeAddress` (70_reset_and_hazards.md section 2; under the default parameters the fill is
such a run, D1, D8). -/
def Obligations.NopSlideRunsOffTheTop : Prop :=
  ∀ s : State, s.run = .running → s.pc.toNat ≤ 255 →
    (∀ a, s.pc.toNat ≤ a → a < 256 → s.mem.read a = opcodeMap .NOP) →
      runFuel (256 - s.pc.toNat) s = { s with pc := 256, ir := opcodeMap .NOP } ∧
      ∃ snap, runFuel (257 - s.pc.toNat) s =
        { s with pc := 256, ir := opcodeMap .NOP, run := .faulted .outOfRangeAddress snap } ∧
        snap.bytes = #v[none, none, none]

/-- A JMP to its own address never ends: after any number of steps the machine is still running at that address, with only `ir`
perhaps changed, so its run has no value (40_dispatch_cycle.md section 2). -/
def Obligations.JumpToItselfNeverEnds : Prop :=
  ∀ (s : State) (r : RegIdx), s.run = .running → s.pc.toNat + 1 ≤ 255 →
    s.mem.read s.pc.toNat = opcodeMap .JMP → s.mem.read (s.pc.toNat + 1) = RegIdx.byte r →
    (s.reg r).toNat = s.pc.toNat →
      (∀ n, runFuel (n + 1) s = { s with ir := opcodeMap .JMP }) ∧ s.diverges

/-- `Run` is the iteration of Step, and partial (40_dispatch_cycle.md R78): a state that is not running runs to itself alone; a
running state runs to what its next state runs to; a run has at most one end; it has none exactly when it diverges; and a
run under a budget that ends in a state not running has ended there. That the budget is the environment's is the spec's
decision D25. -/
def Obligations.RunIsTheIterationOfStep : Prop :=
  (∀ s t : State, s.run ≠ .running → (s.runsTo t ↔ t = s)) ∧
  (∀ s s' t : State, step s = .next s' → (s.runsTo t ↔ s'.runsTo t)) ∧
  (∀ s t t' : State, s.runsTo t → s.runsTo t' → t = t') ∧
  (∀ s : State, s.diverges ↔ ¬ ∃ t, s.runsTo t) ∧
  (∀ (s t : State) (n : Nat), runFuel n s = t → t.run ≠ .running → s.runsTo t ∧ ∀ m, n ≤ m → runFuel m s = t)
end

