-- ==== Sys2Proof/Laws/Decode.lean ====
section
/-! SUPPORT. The dispatch table as the inverse of the opcode map, and the table's own checks. -/

namespace Sys2Proof

theorem Mnemonic.mem_all (m : Mnemonic) : m ∈ Mnemonic.all := by cases m <;> decide

/-- The default opcode map is injective: no two rows of the opcode table overlap (30_encoding.md R54, 00_scope.md R7). -/
theorem opcodeMap_injective : Function.Injective opcodeMap := by
  have find (m : Mnemonic) : dispatchTable opcodeMap (opcodeMap m) = some m := by cases m <;> decide
  intro m n h
  exact Option.some.inj ((find m).symm.trans (h ▸ find n))

/-- An entry of the dispatch table has that byte as its opcode, under any map. -/
theorem dispatchTable_sound {map : OpcodeMap} {b : Byte} {m : Mnemonic} (h : dispatchTable map b = some m) : map m = b := by
  simpa using List.find?_some h

/-- Under an injective map the table finds every mnemonic by its opcode (10_state.md R23). -/
theorem dispatchTable_complete {map : OpcodeMap} (hm : Function.Injective map) (m : Mnemonic) :
    dispatchTable map (map m) = some m := by
  cases h : dispatchTable map (map m) with
  | none => simpa using List.find?_eq_none.1 h m (Mnemonic.mem_all m)
  | some n => rw [hm (dispatchTable_sound h)]

theorem dispatchTable_none {map : OpcodeMap} {b : Byte} : dispatchTable map b = none ↔ ∀ m, map m ≠ b := by
  simp [dispatchTable, List.find?_eq_none, Mnemonic.mem_all]

/-- What the informative layout of 30_encoding.md R55 says of the default map: bits 7:6 count the operand bytes. -/
theorem opcodeMap_length (m : Mnemonic) : m.format.length = 1 + ((opcodeMap m) >>> 6).toNat := by
  cases m <;> decide

@[simp] theorem takeOne_cons (mk : Byte → Instr) (b : Byte) (rest : List Byte) : takeOne mk (b :: rest) = .ok (mk b, rest) := rfl
@[simp] theorem takeOne_nil (mk : Byte → Instr) : takeOne mk [] = .error .missingOperand := rfl
@[simp] theorem takeTwo_cons (mk : Byte → Byte → Instr) (b c : Byte) (rest : List Byte) :
    takeTwo mk (b :: c :: rest) = .ok (mk b c, rest) := rfl
@[simp] theorem takeTwo_nil (mk : Byte → Byte → Instr) : takeTwo mk [] = .error .missingOperand := rfl
@[simp] theorem takeTwo_one (mk : Byte → Byte → Instr) (b : Byte) : takeTwo mk [b] = .error .missingOperand := rfl
@[simp] theorem takeInt_cons (b : Byte) (rest : List Byte) : takeInt (b :: rest) = .ok (.int (some b), rest) := rfl
@[simp] theorem takeInt_nil : takeInt [] = .ok (.int none, []) := rfl

theorem decodeWith_cons_some {map : OpcodeMap} {op : Byte} {m : Mnemonic} (h : dispatchTable map op = some m)
    (rest : List Byte) : decodeWith map (op :: rest) = takeOperands m rest := by
  simp [decodeWith, h]

theorem decodeWith_cons_none {map : OpcodeMap} {op : Byte} (h : dispatchTable map op = none) (rest : List Byte) :
    decodeWith map (op :: rest) = .error (.unrecognizedOpcode op) := by
  simp [decodeWith, h]

theorem decodeWith_nil (map : OpcodeMap) : decodeWith map [] = .error .noOpcode := rfl

/-- What decoding the default map's opcode of `m` amounts to. -/
theorem decode_opcode (m : Mnemonic) (rest : List Byte) : decode (opcodeMap m :: rest) = takeOperands m rest :=
  decodeWith_cons_some (dispatchTable_complete opcodeMap_injective m) rest

/-- Taking operands never yields another mnemonic. -/
theorem takeOperands_mnemonic {m : Mnemonic} {rest rest' : List Byte} {i : Instr}
    (h : takeOperands m rest = .ok (i, rest')) : i.mnemonic = m := by
  cases m <;> rcases rest with _ | ⟨b, _ | ⟨c, rest⟩⟩ <;> simp [takeOperands] at h <;> obtain ⟨rfl, _⟩ := h <;> rfl

end Sys2Proof
end

