-- ==== Sys2Proof/Laws/State.lean ====
section
/-! SUPPORT. One lemma per field for every update of the state, true by rfl, so that no proof unfolds a record update; and how a
register reads after a register write. -/

namespace Sys2Proof.Machine

variable (s : State)

@[simp] theorem setReg_regs (i : RegIdx) (v : Byte) : (s.setReg i v).regs = s.regs.set i v := rfl
@[simp] theorem setReg_pc (i : RegIdx) (v : Byte) : (s.setReg i v).pc = s.pc := rfl
@[simp] theorem setReg_fl (i : RegIdx) (v : Byte) : (s.setReg i v).fl = s.fl := rfl
@[simp] theorem setReg_rh (i : RegIdx) (v : Byte) : (s.setReg i v).rh = s.rh := rfl
@[simp] theorem setReg_mem (i : RegIdx) (v : Byte) : (s.setReg i v).mem = s.mem := rfl
@[simp] theorem setReg_run (i : RegIdx) (v : Byte) : (s.setReg i v).run = s.run := rfl
@[simp] theorem setReg_ir (i : RegIdx) (v : Byte) : (s.setReg i v).ir = s.ir := rfl
@[simp] theorem setReg_out (i : RegIdx) (v : Byte) : (s.setReg i v).out = s.out := rfl

@[simp] theorem setSp_regs (v : Byte) : (s.setSp v).regs = s.regs.set Config.spIndex v := rfl
@[simp] theorem setSp_pc (v : Byte) : (s.setSp v).pc = s.pc := rfl
@[simp] theorem setSp_fl (v : Byte) : (s.setSp v).fl = s.fl := rfl
@[simp] theorem setSp_rh (v : Byte) : (s.setSp v).rh = s.rh := rfl
@[simp] theorem setSp_mem (v : Byte) : (s.setSp v).mem = s.mem := rfl
@[simp] theorem setSp_run (v : Byte) : (s.setSp v).run = s.run := rfl
@[simp] theorem setSp_ir (v : Byte) : (s.setSp v).ir = s.ir := rfl
@[simp] theorem setSp_out (v : Byte) : (s.setSp v).out = s.out := rfl

@[simp] theorem jumpTo_regs (v : Byte) : (s.jumpTo v).regs = s.regs := rfl
@[simp] theorem jumpTo_pc (v : Byte) : (s.jumpTo v).pc = v.toWord9 := rfl
@[simp] theorem jumpTo_fl (v : Byte) : (s.jumpTo v).fl = s.fl := rfl
@[simp] theorem jumpTo_rh (v : Byte) : (s.jumpTo v).rh = s.rh := rfl
@[simp] theorem jumpTo_mem (v : Byte) : (s.jumpTo v).mem = s.mem := rfl
@[simp] theorem jumpTo_run (v : Byte) : (s.jumpTo v).run = s.run := rfl
@[simp] theorem jumpTo_ir (v : Byte) : (s.jumpTo v).ir = s.ir := rfl
@[simp] theorem jumpTo_out (v : Byte) : (s.jumpTo v).out = s.out := rfl

@[simp] theorem advance_regs (n : Nat) : (s.advance n).regs = s.regs := rfl
@[simp] theorem advance_pc (n : Nat) : (s.advance n).pc = s.pc + BitVec.ofNat 9 n := rfl
@[simp] theorem advance_fl (n : Nat) : (s.advance n).fl = s.fl := rfl
@[simp] theorem advance_rh (n : Nat) : (s.advance n).rh = s.rh := rfl
@[simp] theorem advance_mem (n : Nat) : (s.advance n).mem = s.mem := rfl
@[simp] theorem advance_run (n : Nat) : (s.advance n).run = s.run := rfl
@[simp] theorem advance_ir (n : Nat) : (s.advance n).ir = s.ir := rfl
@[simp] theorem advance_out (n : Nat) : (s.advance n).out = s.out := rfl

@[simp] theorem emit_regs (e : Event) : (s.emit e).regs = s.regs := rfl
@[simp] theorem emit_pc (e : Event) : (s.emit e).pc = s.pc := rfl
@[simp] theorem emit_fl (e : Event) : (s.emit e).fl = s.fl := rfl
@[simp] theorem emit_rh (e : Event) : (s.emit e).rh = s.rh := rfl
@[simp] theorem emit_mem (e : Event) : (s.emit e).mem = s.mem := rfl
@[simp] theorem emit_run (e : Event) : (s.emit e).run = s.run := rfl
@[simp] theorem emit_ir (e : Event) : (s.emit e).ir = s.ir := rfl
@[simp] theorem emit_out (e : Event) : (s.emit e).out = s.out ++ [e] := rfl

@[simp] theorem faultedWith_regs (k : FaultKind) : (s.faultedWith k).regs = s.regs := rfl
@[simp] theorem faultedWith_pc (k : FaultKind) : (s.faultedWith k).pc = s.pc := rfl
@[simp] theorem faultedWith_fl (k : FaultKind) : (s.faultedWith k).fl = s.fl := rfl
@[simp] theorem faultedWith_rh (k : FaultKind) : (s.faultedWith k).rh = s.rh := rfl
@[simp] theorem faultedWith_mem (k : FaultKind) : (s.faultedWith k).mem = s.mem := rfl
@[simp] theorem faultedWith_run (k : FaultKind) : (s.faultedWith k).run = .faulted k s.snapshot := rfl
@[simp] theorem faultedWith_ir (k : FaultKind) : (s.faultedWith k).ir = s.ir := rfl
@[simp] theorem faultedWith_out (k : FaultKind) : (s.faultedWith k).out = s.out := rfl

@[simp] theorem decSp_regs : (s.decSp).regs = s.regs.set Config.spIndex (s.sp - 1) := rfl
@[simp] theorem decSp_pc : (s.decSp).pc = s.pc := rfl
@[simp] theorem decSp_fl : (s.decSp).fl = s.fl := rfl
@[simp] theorem decSp_rh : (s.decSp).rh = s.rh := rfl
@[simp] theorem decSp_mem : (s.decSp).mem = s.mem := rfl
@[simp] theorem decSp_run : (s.decSp).run = s.run := rfl
@[simp] theorem decSp_ir : (s.decSp).ir = s.ir := rfl
@[simp] theorem decSp_out : (s.decSp).out = s.out := rfl

@[simp] theorem incSp_regs : (s.incSp).regs = s.regs.set Config.spIndex (s.sp + 1) := rfl
@[simp] theorem incSp_pc : (s.incSp).pc = s.pc := rfl
@[simp] theorem incSp_fl : (s.incSp).fl = s.fl := rfl
@[simp] theorem incSp_rh : (s.incSp).rh = s.rh := rfl
@[simp] theorem incSp_mem : (s.incSp).mem = s.mem := rfl
@[simp] theorem incSp_run : (s.incSp).run = s.run := rfl
@[simp] theorem incSp_ir : (s.incSp).ir = s.ir := rfl
@[simp] theorem incSp_out : (s.incSp).out = s.out := rfl

@[simp] theorem reg_setReg_same (i : RegIdx) (v : Byte) : (s.setReg i v).reg i = v := by
  simp [State.reg, State.setReg]

theorem reg_setReg_other (i j : RegIdx) (v : Byte) (h : j ≠ i) : (s.setReg i v).reg j = s.reg j := by
  simp [State.reg, State.setReg, Fin.val_ne_of_ne (Ne.symm h)]

theorem reg_setReg (i j : RegIdx) (v : Byte) : (s.setReg i v).reg j = if j = i then v else s.reg j := by
  by_cases h : j = i
  · subst h; simp
  · simp [h, reg_setReg_other]

@[simp] theorem sp_setSp (v : Byte) : (s.setSp v).sp = v := reg_setReg_same s Config.spIndex v
@[simp] theorem sp_decSp : s.decSp.sp = s.sp - 1 := sp_setSp s _
@[simp] theorem sp_incSp : s.incSp.sp = s.sp + 1 := sp_setSp s _
@[simp] theorem reg_jumpTo (v : Byte) (j : RegIdx) : (s.jumpTo v).reg j = s.reg j := rfl
@[simp] theorem reg_advance (n : Nat) (j : RegIdx) : (s.advance n).reg j = s.reg j := rfl
@[simp] theorem reg_emit (e : Event) (j : RegIdx) : (s.emit e).reg j = s.reg j := rfl
@[simp] theorem reg_faultedWith (k : FaultKind) (j : RegIdx) : (s.faultedWith k).reg j = s.reg j := rfl
@[simp] theorem sp_jumpTo (v : Byte) : (s.jumpTo v).sp = s.sp := rfl
@[simp] theorem sp_advance (n : Nat) : (s.advance n).sp = s.sp := rfl
@[simp] theorem sp_faultedWith (k : FaultKind) : (s.faultedWith k).sp = s.sp := rfl

theorem reg_decSp (j : RegIdx) : s.decSp.reg j = if j = Config.spIndex then s.sp - 1 else s.reg j :=
  reg_setReg s Config.spIndex j _

theorem reg_incSp (j : RegIdx) : s.incSp.reg j = if j = Config.spIndex then s.sp + 1 else s.reg j :=
  reg_setReg s Config.spIndex j _

/-- Raising a fault changes what the snapshot is taken from in no way (60_exceptions.md R158). -/
@[simp] theorem snapshot_faultedWith (k : FaultKind) : (s.faultedWith k).snapshot = s.snapshot := rfl

theorem snapshot_byte_at_pc (h : s.pc.toNat < Config.memSize) :
    s.snapshot.bytes[0] = some (s.mem.read s.pc.toNat) := by
  simp [State.snapshot, State.byteAt, h]

end Sys2Proof.Machine
end

