-- ==== Sys2Proof/Laws/Ops.lean ====
section
/-! SUPPORT. For each shared operation, what it does where it does not raise, and once everything it can do when it answers a next
state. Proofs about instructions cite these and do not unfold the operations. -/

namespace Sys2Proof.Machine

variable {s t : State}

@[simp] theorem raise_eq (k : FaultKind) (s : State) : raise k s = .next (s.faultedWith k) := rfl

theorem byteAt_of_lt {a : Nat} (h : a < Config.memSize) : s.byteAt a = some (s.mem.read a) := by
  simp [State.byteAt, h]

theorem byteAt_of_ge {a : Nat} (h : Config.memSize ≤ a) : s.byteAt a = none := by
  simp [State.byteAt, Nat.not_lt.2 h]

theorem byte_in_memory (b : Byte) : b.toNat < Config.memSize := b.isLt

/-! ### Operands -/

theorem regIndex_eq_some {b : Byte} {r : RegIdx} : regIndex b = some r ↔ b.toNat = r.val := by
  unfold regIndex
  split
  · simp [Fin.ext_iff]
  · simp; have := r.isLt; omega

theorem regIndex_eq_none {b : Byte} : regIndex b = none ↔ 8 ≤ b.toNat := by
  unfold regIndex
  split <;> simp_all

@[simp] theorem regIndex_byte (r : RegIdx) : regIndex (RegIdx.byte r) = some r := by
  have h : r.val < 8 := r.isLt
  rw [regIndex_eq_some, RegIdx.byte, BitVec.toNat_ofNat]; omega

theorem regIndex_isSome (b : Byte) : (regIndex b).isSome = b.isReg := by
  unfold regIndex Byte.isReg
  split <;> simp_all

theorem withReg_some {b : Byte} {r : RegIdx} (h : regIndex b = some r) (next : RegIdx → Result) :
    withReg b s next = next r := by
  simp [withReg, h]

theorem withReg_none {b : Byte} (h : regIndex b = none) (next : RegIdx → Result) :
    withReg b s next = .next (s.faultedWith .outOfRangeAddress) := by
  simp [withReg, h]

theorem withReg_cases {b : Byte} {next : RegIdx → Result} (h : withReg b s next = .next t) :
    (∃ r, regIndex b = some r ∧ next r = .next t) ∨ (regIndex b = none ∧ t = s.faultedWith .outOfRangeAddress) := by
  cases hb : regIndex b with
  | some r => exact .inl ⟨r, rfl, by rwa [withReg_some hb] at h⟩
  | none =>
    rw [withReg_none hb] at h
    exact .inr ⟨rfl, by injection h with h; exact h.symm⟩

theorem withRegs_some {b1 b2 : Byte} {a b : RegIdx} (h1 : regIndex b1 = some a) (h2 : regIndex b2 = some b)
    (next : RegIdx → RegIdx → Result) : withRegs b1 b2 s next = next a b := by
  rw [withRegs, withReg_some h1, withReg_some h2]

theorem withRegs_none {b1 b2 : Byte} (h : regIndex b1 = none ∨ regIndex b2 = none) (next : RegIdx → RegIdx → Result) :
    withRegs b1 b2 s next = .next (s.faultedWith .outOfRangeAddress) := by
  cases h1 : regIndex b1 with
  | none => rw [withRegs, withReg_none h1]
  | some a => rw [withRegs, withReg_some h1, withReg_none (by simpa [h1] using h)]

theorem withRegs_cases {b1 b2 : Byte} {next : RegIdx → RegIdx → Result} (h : withRegs b1 b2 s next = .next t) :
    (∃ a b, regIndex b1 = some a ∧ regIndex b2 = some b ∧ next a b = .next t) ∨
      ((regIndex b1 = none ∨ regIndex b2 = none) ∧ t = s.faultedWith .outOfRangeAddress) := by
  rcases withReg_cases h with ⟨a, ha, h⟩ | ⟨ha, h⟩
  · rcases withReg_cases h with ⟨b, hb, h⟩ | ⟨hb, h⟩
    · exact .inl ⟨a, b, ha, hb, h⟩
    · exact .inr ⟨.inr hb, h⟩
  · exact .inr ⟨.inl ha, h⟩

/-! ### Memory accesses: an address that is a byte never raises (20_memory.md R45) -/

@[simp] theorem withMemRead_byte (b : Byte) (next : Byte → Result) :
    withMemRead s b.toNat next = next (s.mem.read b.toNat) := by
  simp [withMemRead, byteAt_of_lt (byte_in_memory b)]

@[simp] theorem withMemWrite_byte (b v : Byte) (next : State → Result) :
    withMemWrite s b.toNat v next = next { s with mem := s.mem.write b.toNat v } := by
  simp [withMemWrite, byte_in_memory b]

theorem withMemRead_above {a : Nat} (h : Config.memSize ≤ a) (next : Byte → Result) :
    withMemRead s a next = .next (s.faultedWith .outOfRangeAddress) := by
  simp [withMemRead, byteAt_of_ge h]

theorem withMemWrite_above {a : Nat} (h : Config.memSize ≤ a) (v : Byte) (next : State → Result) :
    withMemWrite s a v next = .next (s.faultedWith .outOfRangeAddress) := by
  simp [withMemWrite, Nat.not_lt.2 h]

/-! ### The stack -/

/-- `Push`, in one equation (43_stack.md R120). -/
theorem withPush_eq (value : State → Byte) (next : State → Result) :
    withPush value s next =
      if (s.sp - 1).toNat = s.rh.toNat then .next (s.decSp.faultedWith .stackOverflow)
      else next { s.decSp with mem := s.mem.write (s.sp - 1).toNat (value s.decSp) } := by
  simp only [withPush, sp_decSp, decSp_rh, withMemWrite_byte, raise_eq, decSp_mem]

theorem withPush_cases {value : State → Byte} {next : State → Result} (h : withPush value s next = .next t) :
    ((s.sp - 1).toNat = s.rh.toNat ∧ t = s.decSp.faultedWith .stackOverflow) ∨
      ((s.sp - 1).toNat ≠ s.rh.toNat ∧
        next { s.decSp with mem := s.mem.write (s.sp - 1).toNat (value s.decSp) } = .next t) := by
  rw [withPush_eq] at h
  split at h
  · exact .inl ⟨‹_›, by injection h with h; exact h.symm⟩
  · exact .inr ⟨‹_›, h⟩

/-- The check and read of `Pop`, in one equation (43_stack.md R121). -/
theorem withPopped_eq (next : Byte → Result) :
    withPopped s next =
      if s.sp = spInit then .next (s.faultedWith .stackUnderflow) else next (s.mem.read s.sp.toNat) := by
  simp only [withPopped, withMemRead_byte, raise_eq]

theorem withPopped_cases {next : Byte → Result} (h : withPopped s next = .next t) :
    (s.sp = spInit ∧ t = s.faultedWith .stackUnderflow) ∨
      (s.sp ≠ spInit ∧ next (s.mem.read s.sp.toNat) = .next t) := by
  rw [withPopped_eq] at h
  split at h
  · exact .inl ⟨‹_›, by injection h with h; exact h.symm⟩
  · exact .inr ⟨‹_›, h⟩

/-! ### The instruction shapes -/

theorem alu2_cases {f : Byte → Byte → Byte} {b1 b2 : Byte} (h : alu2 f b1 b2 s = .next t) :
    (∃ a b, regIndex b1 = some a ∧ regIndex b2 = some b ∧ t = (s.setReg a (f (s.reg a) (s.reg b))).advance 3) ∨
      ((regIndex b1 = none ∨ regIndex b2 = none) ∧ t = s.faultedWith .outOfRangeAddress) := by
  rcases withRegs_cases h with ⟨a, b, ha, hb, h⟩ | h
  · exact .inl ⟨a, b, ha, hb, by injection h with h; exact h.symm⟩
  · exact .inr h

theorem alu1_cases {g : Byte → Byte} {b1 : Byte} (h : alu1 g b1 s = .next t) :
    (∃ r, regIndex b1 = some r ∧ t = (s.setReg r (g (s.reg r))).advance 2) ∨
      (regIndex b1 = none ∧ t = s.faultedWith .outOfRangeAddress) := by
  rcases withReg_cases h with ⟨r, hr, h⟩ | h
  · exact .inl ⟨r, hr, by injection h with h; exact h.symm⟩
  · exact .inr h

theorem aluDivide_cases {f : Byte → Byte → Byte} {b1 b2 : Byte} (h : aluDivide f b1 b2 s = .next t) :
    (∃ a b, regIndex b1 = some a ∧ regIndex b2 = some b ∧
      ((s.reg b = 0 ∧ t = s.faultedWith .arithmeticFault) ∨
        (s.reg b ≠ 0 ∧ t = (s.setReg a (f (s.reg a) (s.reg b))).advance 3))) ∨
      ((regIndex b1 = none ∨ regIndex b2 = none) ∧ t = s.faultedWith .outOfRangeAddress) := by
  rcases withRegs_cases h with ⟨a, b, ha, hb, h⟩ | h
  · refine .inl ⟨a, b, ha, hb, ?_⟩
    split at h
    · exact .inl ⟨‹_›, by injection h with h; exact h.symm⟩
    · exact .inr ⟨‹_›, by injection h with h; exact h.symm⟩
  · exact .inr h

theorem jumpIf_cases {c : Cond} {b1 : Byte} (h : jumpIf c b1 s = .next t) :
    (∃ r, regIndex b1 = some r ∧
      ((c.taken s.fl = true ∧ t = s.jumpTo (s.reg r)) ∨ (c.taken s.fl = false ∧ t = s.advance 2))) ∨
      (regIndex b1 = none ∧ t = s.faultedWith .outOfRangeAddress) := by
  rcases withReg_cases h with ⟨r, hr, h⟩ | h
  · refine .inl ⟨r, hr, ?_⟩
    injection h with h
    split at h
    · exact .inl ⟨‹_›, h.symm⟩
    · exact .inr ⟨Bool.not_eq_true _ ▸ ‹¬ c.taken s.fl = true›, h.symm⟩
  · exact .inr h

/-- CMP never writes `None`. -/
theorem compareFl_ne_none (x y : Byte) : compareFl x y ≠ .none := by
  unfold compareFl; split
  · simp
  · split <;> simp

end Sys2Proof.Machine
end

