-- ==== Sys2Proof/Laws/Exec.lean ====
section
/-! SUPPORT. Once, over all instructions: the ways `exec` can end. Proofs about faults and about whole steps split on
`ExecOutcome` instead of unfolding the meanings. -/

namespace Sys2Proof.Machine

/-- How an instruction `i` executed in `s` can end in `t`: in one of the machine's faults, with its cause; halted; or with
the run state, `rh` and `ir` as they were. -/
inductive ExecOutcome (i : Instr) (s t : State) : Prop
  | badIndex (bad : hasBadIndex i = true) (result : t = s.faultedWith .outOfRangeAddress)
  | zeroDivisor (b1 b2 : Byte) (a b : RegIdx) (legal1 : regIndex b1 = some a) (legal2 : regIndex b2 = some b)
      (zero : s.reg b = 0) (which : i = .div b1 b2 ∨ i = .mod b1 b2) (result : t = s.faultedWith .arithmeticFault)
  | emptyStack (empty : s.sp = spInit) (which : i = .ret ∨ ∃ b r, regIndex b = some r ∧ i = .pop b)
      (result : t = s.faultedWith .stackUnderflow)
  | fullStack (full : (s.sp - 1).toNat = s.rh.toNat)
      (which : ∃ b r, regIndex b = some r ∧ (i = .push b ∨ (i = .call b ∧ s.pc.toNat + 2 < Config.memSize)))
      (result : t = s.decSp.faultedWith .stackOverflow)
  | callAtTop (b : Byte) (r : RegIdx) (legal : regIndex b = some r) (which : i = .call b)
      (above : Config.memSize ≤ s.pc.toNat + 2) (result : t = s.faultedWith .outOfRangeAddress)
  | halts (which : i = .hlt) (result : t = { s with run := .halted })
  | completes (good : hasBadIndex i = false) (running : t.run = s.run) (heap : t.rh = s.rh) (latched : t.ir = s.ir)

variable {i : Instr} {s t : State}

theorem isReg_of_some {b : Byte} {r : RegIdx} (h : regIndex b = some r) : b.isReg = true := by
  rw [← regIndex_isSome, h]; rfl

theorem isReg_of_none {b : Byte} (h : regIndex b = none) : b.isReg = false := by
  rw [← regIndex_isSome, h]; rfl

/-- The two ways a format R instruction's index check goes. -/
theorem outcome_withReg {b1 : Byte} {next : RegIdx → Result} (hi : hasBadIndex i = !b1.isReg)
    (hn : ∀ r, regIndex b1 = some r → hasBadIndex i = false → next r = .next t → ExecOutcome i s t)
    (h : withReg b1 s next = .next t) : ExecOutcome i s t := by
  rcases withReg_cases h with ⟨r, hr, h⟩ | ⟨hr, rfl⟩
  · exact hn r hr (by rw [hi, isReg_of_some hr]; rfl) h
  · exact .badIndex (by rw [hi, isReg_of_none hr]; rfl) rfl

/-- The two ways a format RR instruction's index checks go. -/
theorem outcome_withRegs {b1 b2 : Byte} {next : RegIdx → RegIdx → Result} (hi : hasBadIndex i = !(b1.isReg && b2.isReg))
    (hn : ∀ a b, regIndex b1 = some a → regIndex b2 = some b → hasBadIndex i = false → next a b = .next t →
      ExecOutcome i s t)
    (h : withRegs b1 b2 s next = .next t) : ExecOutcome i s t := by
  rcases withRegs_cases h with ⟨a, b, ha, hb, h⟩ | ⟨hb, rfl⟩
  · exact hn a b ha hb (by rw [hi, isReg_of_some ha, isReg_of_some hb]; rfl) h
  · refine .badIndex ?_ rfl
    rcases hb with hb | hb <;> simp [hi, isReg_of_none hb]

theorem outcome_alu2 {f : Byte → Byte → Byte} {b1 b2 : Byte} (hi : hasBadIndex i = !(b1.isReg && b2.isReg))
    (h : alu2 f b1 b2 s = .next t) : ExecOutcome i s t :=
  outcome_withRegs hi (fun _ _ _ _ hg h => by cases h; exact .completes hg rfl rfl rfl) h

theorem outcome_alu1 {g : Byte → Byte} {b1 : Byte} (hi : hasBadIndex i = !b1.isReg) (h : alu1 g b1 s = .next t) :
    ExecOutcome i s t :=
  outcome_withReg hi (fun _ _ hg h => by cases h; exact .completes hg rfl rfl rfl) h

theorem outcome_jumpIf {c : Cond} {b1 : Byte} (hi : hasBadIndex i = !b1.isReg) (h : jumpIf c b1 s = .next t) :
    ExecOutcome i s t :=
  outcome_withReg hi (fun _ _ hg h => by cases h; split <;> exact .completes hg rfl rfl rfl) h

theorem outcome_aluDivide {f : Byte → Byte → Byte} {b1 b2 : Byte} (hi : hasBadIndex i = !(b1.isReg && b2.isReg))
    (hw : i = .div b1 b2 ∨ i = .mod b1 b2) (h : aluDivide f b1 b2 s = .next t) : ExecOutcome i s t :=
  outcome_withRegs hi (fun a b ha hb hg h => by
    split at h
    · rename_i h0; cases h; exact .zeroDivisor b1 b2 a b ha hb h0 hw rfl
    · cases h; exact .completes hg rfl rfl rfl) h

/-- Every instruction ends in one of the outcomes. -/
theorem exec_outcome (h : exec i s = .next t) : ExecOutcome i s t := by
  cases i with
  | nop => cases h; exact .completes rfl rfl rfl rfl
  | hlt => cases h; exact .halts rfl rfl
  | ret =>
    rcases withPopped_cases h with ⟨h0, rfl⟩ | ⟨_, h⟩
    · exact .emptyStack h0 (.inl rfl) rfl
    · cases h; exact .completes rfl rfl rfl rfl
  | iret => cases h; exact .completes rfl rfl rfl rfl
  | push b =>
    refine outcome_withReg rfl (fun r hr hg h => ?_) h
    rcases withPush_cases h with ⟨h0, rfl⟩ | ⟨_, h⟩
    · exact .fullStack h0 ⟨b, r, hr, .inl rfl⟩ rfl
    · cases h; exact .completes hg rfl rfl rfl
  | pop b =>
    refine outcome_withReg rfl (fun r hr hg h => ?_) h
    rcases withPopped_cases h with ⟨h0, rfl⟩ | ⟨_, h⟩
    · exact .emptyStack h0 (.inr ⟨b, r, hr, rfl⟩) rfl
    · cases h; exact .completes hg rfl rfl rfl
  | prn b => exact outcome_withReg rfl (fun _ _ hg h => by cases h; exact .completes hg rfl rfl rfl) h
  | pra b => exact outcome_withReg rfl (fun _ _ hg h => by cases h; exact .completes hg rfl rfl rfl) h
  | call b =>
    refine outcome_withReg rfl (fun r hr hg h => ?_) h
    split at h
    · rename_i hp
      rcases withPush_cases h with ⟨h0, rfl⟩ | ⟨_, h⟩
      · exact .fullStack h0 ⟨b, r, hr, .inr ⟨rfl, hp⟩⟩ rfl
      · cases h; exact .completes hg rfl rfl rfl
    · rename_i hp
      cases h; exact .callAtTop b r hr rfl (Nat.not_lt.1 hp) rfl
  | int o => cases h; exact .completes rfl rfl rfl rfl
  | jmp b => exact outcome_withReg rfl (fun _ _ hg h => by cases h; exact .completes hg rfl rfl rfl) h
  | jeq b => exact outcome_jumpIf rfl h
  | jne b => exact outcome_jumpIf rfl h
  | jgt b => exact outcome_jumpIf rfl h
  | jlt b => exact outcome_jumpIf rfl h
  | jle b => exact outcome_jumpIf rfl h
  | jge b => exact outcome_jumpIf rfl h
  | inc b => exact outcome_alu1 rfl h
  | dec b => exact outcome_alu1 rfl h
  | not b => exact outcome_alu1 rfl h
  | ldi b imm => exact outcome_withReg rfl (fun _ _ hg h => by cases h; exact .completes hg rfl rfl rfl) h
  | ld a b =>
    exact outcome_withRegs rfl (fun _ _ _ _ hg h => by
      rw [withMemRead_byte] at h; cases h; exact .completes hg rfl rfl rfl) h
  | st a b =>
    exact outcome_withRegs rfl (fun _ _ _ _ hg h => by
      rw [withMemWrite_byte] at h; cases h; exact .completes hg rfl rfl rfl) h
  | add a b => exact outcome_alu2 rfl h
  | sub a b => exact outcome_alu2 rfl h
  | mul a b => exact outcome_alu2 rfl h
  | div a b => exact outcome_aluDivide rfl (.inl rfl) h
  | mod a b => exact outcome_aluDivide rfl (.inr rfl) h
  | cmp a b => exact outcome_withRegs rfl (fun _ _ _ _ hg h => by cases h; exact .completes hg rfl rfl rfl) h
  | and a b => exact outcome_alu2 rfl h
  | or a b => exact outcome_alu2 rfl h
  | xor a b => exact outcome_alu2 rfl h
  | shl a b => exact outcome_alu2 rfl h
  | shr a b => exact outcome_alu2 rfl h

end Sys2Proof.Machine
end

