-- ==== Sys2Proof/Laws/Memory.lean ====
section
/-! SUPPORT. Memory: a read after a write, the frame of a write, and that every memory operation keeps the canonical form
(spec/20_memory.md R31, R32). -/

namespace Sys2Proof.Machine

@[simp] theorem read_nil (a : Nat) : Memory.read [] a = memFill := rfl

@[simp] theorem read_cons (k : Nat) (v : Byte) (m : Memory) (a : Nat) :
    Memory.read ((k, v) :: m) a = if k = a then v else Memory.read m a := rfl

@[simp] theorem wfFrom_nil (lo : Nat) : Memory.wfFrom lo [] = true := rfl

theorem wfFrom_cons {lo a : Nat} {v : Byte} {m : Memory} :
    Memory.wfFrom lo ((a, v) :: m) = true ↔
      lo ≤ a ∧ a < Config.memSize ∧ v ≠ memFill ∧ Memory.wfFrom (a + 1) m = true := by
  simp [Memory.wfFrom, and_assoc]

theorem wfFrom_mono {lo lo' : Nat} (h : lo ≤ lo') : ∀ {m : Memory}, Memory.wfFrom lo' m = true → Memory.wfFrom lo m = true
  | [], _ => rfl
  | (a, v) :: m, hm => by
    obtain ⟨h1, h2, h3, h4⟩ := wfFrom_cons.1 hm
    exact wfFrom_cons.2 ⟨h.trans h1, h2, h3, h4⟩

/-- Below the first listed address everything reads as the fill. -/
theorem read_below : ∀ {m : Memory} {lo a : Nat}, Memory.wfFrom lo m = true → a < lo → Memory.read m a = memFill
  | [], _, _, _, _ => rfl
  | (k, v) :: m, lo, a, hm, ha => by
    obtain ⟨h1, _, _, h4⟩ := wfFrom_cons.1 hm
    rw [read_cons, if_neg (by omega)]
    exact read_below h4 (by omega)

/-- A write leaves every other cell alone, in any list. -/
theorem read_write_other {a b : Nat} (v : Byte) (h : b ≠ a) : ∀ m : Memory, (Memory.write m a v).read b = m.read b
  | [] => by
    unfold Memory.write; split <;> simp [Ne.symm h]
  | (k, w) :: m => by
    unfold Memory.write
    split
    · split <;> simp [Ne.symm h]
    · split
      · rename_i h1 h2; subst h2
        split <;> simp [Ne.symm h]
      · simp [read_write_other v h m]

theorem read_write_same_from {a : Nat} (v : Byte) :
    ∀ {m : Memory} {lo : Nat}, Memory.wfFrom lo m = true → (Memory.write m a v).read a = v
  | [], _, _ => by
    unfold Memory.write; split <;> simp [*]
  | (k, w) :: m, lo, hm => by
    obtain ⟨_, _, _, h4⟩ := wfFrom_cons.1 hm
    unfold Memory.write
    split
    · rename_i h1
      split
      · subst v; rw [read_cons, if_neg (by omega)]; exact read_below h4 (by omega)
      · simp
    · split
      · rename_i h1 h2; subst h2
        split
        · subst v; exact read_below h4 (by omega)
        · simp
      · rename_i h1 h2
        rw [read_cons, if_neg (fun h => h2 h.symm)]
        exact read_write_same_from v h4

/-- A read after a write to the same cell gives the value written. -/
theorem read_write_same {m : Memory} (h : m.wf = true) (a : Nat) (v : Byte) : (m.write a v).read a = v :=
  read_write_same_from v h

theorem read_write {m : Memory} (h : m.wf = true) (a b : Nat) (v : Byte) :
    (m.write a v).read b = if b = a then v else m.read b := by
  split
  · subst b; exact read_write_same h a v
  · exact read_write_other v ‹_› m

theorem wfFrom_write {a : Nat} (v : Byte) (ha : a < Config.memSize) :
    ∀ {m : Memory} {lo : Nat}, Memory.wfFrom lo m = true → lo ≤ a → Memory.wfFrom lo (Memory.write m a v) = true
  | [], lo, _, hl => by
    unfold Memory.write; split
    · rfl
    · exact wfFrom_cons.2 ⟨hl, ha, ‹_›, rfl⟩
  | (k, w) :: m, lo, hm, hl => by
    obtain ⟨h1, h2, h3, h4⟩ := wfFrom_cons.1 hm
    unfold Memory.write
    split
    · split
      · exact hm
      · exact wfFrom_cons.2 ⟨hl, ha, ‹_›, wfFrom_cons.2 ⟨by omega, h2, h3, h4⟩⟩
    · split
      · rename_i h5 h6; subst h6
        split
        · exact wfFrom_mono (by omega) h4
        · exact wfFrom_cons.2 ⟨h1, h2, ‹_›, h4⟩
      · exact wfFrom_cons.2 ⟨h1, h2, h3, wfFrom_write v ha h4 (by omega)⟩

/-- A write keeps the canonical form. -/
theorem wf_write {m : Memory} (h : m.wf = true) {a : Nat} (ha : a < Config.memSize) (v : Byte) : (m.write a v).wf = true :=
  wfFrom_write v ha h (Nat.zero_le a)

/-- Storing a run of bytes keeps the canonical form. -/
theorem wf_storeBytes : ∀ (bs : List Byte) {m : Memory} (a : Nat), m.wf = true → (m.storeBytes a bs).wf = true
  | [], _, _, h => h
  | b :: bs, m, a, h => by
    unfold Memory.storeBytes
    refine wf_storeBytes bs (a + 1) ?_
    split
    · exact wf_write h ‹_› b
    · exact h

theorem wf_nil : Memory.wf [] = true := rfl

theorem reset_mem_wf : State.reset.mem.wf = true := rfl

theorem withFetchWord_mem_wf (s : State) (nbits w : Nat) (h : s.mem.wf = true) :
    (s.withFetchWord nbits w).mem.wf = true :=
  wf_storeBytes _ _ h

end Sys2Proof.Machine
end

