-- ==== Sys2Proof/Laws/PerInstr.lean ====
section
/-! SUPPORT. Statements made per instruction, one lemma per constructor (LAWS.json, "per_instruction"). EncodedLength: a
well-formed instruction is encoded in as many bytes as its mnemonic's format has (spec/30_encoding.md R50, R51). -/

namespace Sys2Proof.Laws.EncodedLength

/-- The encoding of a well-formed instruction has the length the format gives. -/
def Statement (i : Instr) : Prop := i.wf = true → (encode i).length = i.length

theorem nop : Statement (.nop) := fun _ => rfl
theorem hlt : Statement (.hlt) := fun _ => rfl
theorem ret : Statement (.ret) := fun _ => rfl
theorem iret : Statement (.iret) := fun _ => rfl
theorem push (r : Byte) : Statement (.push r) := fun _ => rfl
theorem pop (r : Byte) : Statement (.pop r) := fun _ => rfl
theorem prn (r : Byte) : Statement (.prn r) := fun _ => rfl
theorem pra (r : Byte) : Statement (.pra r) := fun _ => rfl
theorem call (r : Byte) : Statement (.call r) := fun _ => rfl
theorem int (r : Option Byte) : Statement (.int r) := by
  intro h
  cases r with
  | none => cases h
  | some b => rfl
theorem jmp (r : Byte) : Statement (.jmp r) := fun _ => rfl
theorem jeq (r : Byte) : Statement (.jeq r) := fun _ => rfl
theorem jne (r : Byte) : Statement (.jne r) := fun _ => rfl
theorem jgt (r : Byte) : Statement (.jgt r) := fun _ => rfl
theorem jlt (r : Byte) : Statement (.jlt r) := fun _ => rfl
theorem jle (r : Byte) : Statement (.jle r) := fun _ => rfl
theorem jge (r : Byte) : Statement (.jge r) := fun _ => rfl
theorem inc (r : Byte) : Statement (.inc r) := fun _ => rfl
theorem dec (r : Byte) : Statement (.dec r) := fun _ => rfl
theorem not (r : Byte) : Statement (.not r) := fun _ => rfl
theorem ldi (r imm : Byte) : Statement (.ldi r imm) := fun _ => rfl
theorem ld (a b : Byte) : Statement (.ld a b) := fun _ => rfl
theorem st (a b : Byte) : Statement (.st a b) := fun _ => rfl
theorem add (a b : Byte) : Statement (.add a b) := fun _ => rfl
theorem sub (a b : Byte) : Statement (.sub a b) := fun _ => rfl
theorem mul (a b : Byte) : Statement (.mul a b) := fun _ => rfl
theorem div (a b : Byte) : Statement (.div a b) := fun _ => rfl
theorem mod (a b : Byte) : Statement (.mod a b) := fun _ => rfl
theorem cmp (a b : Byte) : Statement (.cmp a b) := fun _ => rfl
theorem and (a b : Byte) : Statement (.and a b) := fun _ => rfl
theorem or (a b : Byte) : Statement (.or a b) := fun _ => rfl
theorem xor (a b : Byte) : Statement (.xor a b) := fun _ => rfl
theorem shl (a b : Byte) : Statement (.shl a b) := fun _ => rfl
theorem shr (a b : Byte) : Statement (.shr a b) := fun _ => rfl

end Sys2Proof.Laws.EncodedLength
end

