-- ==== Sys2Proof/Laws/Step.lean ====
section
/-! SUPPORT. The stages of a step, and once everything a step can do when it answers a next state (spec/40_dispatch_cycle.md
R70 to R79). -/

namespace Sys2Proof.Machine

variable {s t : State}

theorem latchIr_of_lt (h : s.pc.toNat < Config.memSize) : s.latchIr = { s with ir := s.mem.read s.pc.toNat } := by
  simp [State.latchIr, byteAt_of_lt h]

theorem latchIr_of_ge (h : Config.memSize ≤ s.pc.toNat) : s.latchIr = s := by
  simp [State.latchIr, byteAt_of_ge h]

@[simp] theorem latchIr_regs : s.latchIr.regs = s.regs := by unfold State.latchIr; split <;> rfl
@[simp] theorem latchIr_pc : s.latchIr.pc = s.pc := by unfold State.latchIr; split <;> rfl
@[simp] theorem latchIr_fl : s.latchIr.fl = s.fl := by unfold State.latchIr; split <;> rfl
@[simp] theorem latchIr_rh : s.latchIr.rh = s.rh := by unfold State.latchIr; split <;> rfl
@[simp] theorem latchIr_mem : s.latchIr.mem = s.mem := by unfold State.latchIr; split <;> rfl
@[simp] theorem latchIr_run : s.latchIr.run = s.run := by unfold State.latchIr; split <;> rfl
@[simp] theorem latchIr_out : s.latchIr.out = s.out := by unfold State.latchIr; split <;> rfl
@[simp] theorem latchIr_reg (i : RegIdx) : s.latchIr.reg i = s.reg i := by simp [State.reg]
@[simp] theorem latchIr_sp : s.latchIr.sp = s.sp := latchIr_reg _

/-! ### The fetch window -/

theorem fetchWindow_of_ge (h : Config.memSize ≤ s.pc.toNat) : s.fetchWindow = [] := by
  simp [State.fetchWindow, byteAt_of_ge h, byteAt_of_ge (show Config.memSize ≤ s.pc.toNat + 1 by omega),
    byteAt_of_ge (show Config.memSize ≤ s.pc.toNat + 2 by omega)]

theorem fetchWindow_three (h : s.pc.toNat + 2 < Config.memSize) :
    s.fetchWindow = [s.mem.read s.pc.toNat, s.mem.read (s.pc.toNat + 1), s.mem.read (s.pc.toNat + 2)] := by
  simp [State.fetchWindow, byteAt_of_lt h, byteAt_of_lt (show s.pc.toNat + 1 < Config.memSize by omega),
    byteAt_of_lt (show s.pc.toNat < Config.memSize by omega)]

theorem fetchWindow_two (h : s.pc.toNat = 254) : s.fetchWindow = [s.mem.read 254, s.mem.read 255] := by
  simp [State.fetchWindow, h, byteAt_of_lt (s := s) (show 254 < Config.memSize by decide),
    byteAt_of_lt (s := s) (show 255 < Config.memSize by decide), byteAt_of_ge (s := s) (show Config.memSize ≤ 256 by decide)]

theorem fetchWindow_one (h : s.pc.toNat = 255) : s.fetchWindow = [s.mem.read 255] := by
  simp [State.fetchWindow, h, byteAt_of_lt (s := s) (show 255 < Config.memSize by decide),
    byteAt_of_ge (s := s) (show Config.memSize ≤ 256 by decide), byteAt_of_ge (s := s) (show Config.memSize ≤ 257 by decide)]

/-- The window begins with the opcode byte, and has three bytes but at the top of memory. -/
theorem fetchWindow_cons (h : s.pc.toNat < Config.memSize) :
    ∃ rest, s.fetchWindow = s.mem.read s.pc.toNat :: rest ∧ rest.length = min 2 (255 - s.pc.toNat) := by
  rcases lt_trichotomy s.pc.toNat 254 with h1 | h1 | h1
  · exact ⟨_, fetchWindow_three (by simp only [Config.memSize]; omega), by simp; omega⟩
  · exact ⟨_, by rw [fetchWindow_two h1, h1], by simp [h1]⟩
  · have h2 : s.pc.toNat = 255 := by simp only [Config.memSize] at h; omega
    exact ⟨_, by rw [fetchWindow_one h2, h2], by simp [h2]⟩

/-- Bytes at `pc` decode only where `pc` is an address, and to an instruction of the mnemonic whose opcode lies there. -/
theorem decode_fetchWindow_ok {i : Instr} {rest : List Byte} (hd : decode s.fetchWindow = .ok (i, rest)) :
    s.pc.toNat < Config.memSize ∧ s.mem.read s.pc.toNat = opcodeMap i.mnemonic := by
  by_cases h : s.pc.toNat < Config.memSize
  · obtain ⟨bs, hw, _⟩ := fetchWindow_cons h
    rw [hw] at hd
    refine ⟨h, ?_⟩
    cases hm : dispatchTable opcodeMap (s.mem.read s.pc.toNat) with
    | none => rw [decode, decodeWith_cons_none hm] at hd; cases hd
    | some m =>
      rw [decode, decodeWith_cons_some hm] at hd
      rw [takeOperands_mnemonic hd]; exact (dispatchTable_sound hm).symm
  · rw [fetchWindow_of_ge (Nat.not_lt.1 h)] at hd; cases hd

/-! ### The step -/

theorem step_halted (h : s.run = .halted) : step s = .fault .halted := by simp [step, h]

theorem step_faulted {k : FaultKind} {snap : Snapshot} (h : s.run = .faulted k snap) : step s = .fault (.faulted k) := by
  simp [step, h]

theorem step_ok {i : Instr} {rest : List Byte} (h : s.run = .running) (hd : decode s.fetchWindow = .ok (i, rest)) :
    step s = exec i s.latchIr := by
  simp [step, h, hd]

theorem step_error {e : DecodeError} (h : s.run = .running) (hd : decode s.fetchWindow = .error e) :
    step s = .next (s.latchIr.faultedWith (faultOfDecodeError e)) := by
  simp [step, h, hd]

/-- Everything a step can do when it answers a next state. -/
theorem step_cases (h : step s = .next t) :
    s.run = .running ∧
      ((∃ e, decode s.fetchWindow = .error e ∧ t = s.latchIr.faultedWith (faultOfDecodeError e)) ∨
        (∃ i rest, decode s.fetchWindow = .ok (i, rest) ∧ exec i s.latchIr = .next t)) := by
  cases hr : s.run with
  | halted => rw [step_halted hr] at h; cases h
  | faulted k snap => rw [step_faulted hr] at h; cases h
  | running =>
    refine ⟨rfl, ?_⟩
    cases hd : decode s.fetchWindow with
    | error e =>
      rw [step_error hr hd] at h
      exact .inl ⟨e, rfl, by injection h with h; exact h.symm⟩
    | ok p =>
      obtain ⟨i, rest⟩ := p
      rw [step_ok hr hd] at h
      exact .inr ⟨i, rest, rfl, h⟩

/-! ### The run relation -/

@[simp] theorem runFuel_zero : runFuel 0 s = s := rfl

theorem runFuel_succ_next {n : Nat} (h : step s = .next t) : runFuel (n + 1) s = runFuel n t := by
  simp [runFuel, h]

end Sys2Proof.Machine
end

