-- ==== Sys2Proof/Tests/Slice0.lean ====
section
/-! SUPPORT. Tests of the model and witnesses of the statements' hypotheses. Expected results of the tests are those of
spec/95_test_vectors.md (the vector is named at each group) and of the encoding table of spec/30_encoding.md R54. -/

namespace Sys2Proof.Tests

open Sys2Proof.Machine

/-! ### Helpers -/

/-- A running machine with the given bytes at 0x10, `pc` there, `rh = 10`, the given registers and further cells set. -/
def start (regs : List (RegIdx × Byte)) (cells : List Host.Cell) (bytes : List Byte) : State :=
  let s := { State.reset with
    pc := 0x10, rh := 10, mem := cells.foldl (fun m c => m.write c.1 c.2) (Memory.storeBytes [] 0x10 bytes) }
  regs.foldl (fun s r => s.setReg r.1 r.2) s

/-- A running machine with the given bytes at `a`, and `pc` there. -/
def startAt (a : Byte) (bytes : List Byte) : State :=
  { State.reset with pc := a.toWord9, mem := Memory.storeBytes [] a.toNat bytes }

/-- The state after one step. -/
def after (s : State) : State :=
  match step s with
  | .next t => t
  | _ => s

/-- The state after one instruction. -/
def effect (i : Instr) (s : State) : State :=
  match exec i s with
  | .next t => t
  | _ => s

/-- The fault kind a state records. -/
def faultOf (s : State) : Option FaultKind :=
  match s.run with
  | .faulted k _ => some k
  | _ => none

/-- `x[0]` and `pc` after `<op> 00 01` at 0x10 with `x[0] = a`, `x[1] = b` (V-ALU). -/
def alu (op a b : Byte) : Byte × Word9 :=
  let t := after (start [(0, a), (1, b)] [] [op, 0x00, 0x01])
  (t.reg 0, t.pc)

/-- `x[0]` and `pc` after `<op> 00` at 0x10 with `x[0] = a` (V-UN). -/
def unary (op a : Byte) : Byte × Word9 :=
  let t := after (start [(0, a)] [] [op, 0x00])
  (t.reg 0, t.pc)

/-- `fl` after `CMP R0, R1` (V-CMP). -/
def cmp (a b : Byte) : Fl := (after (start [(0, a), (1, b)] [] [0xA7, 0x00, 0x01])).fl

/-- `pc` after the jump `<op> 02` at 0x10 with `x[2] = 0x30`, for `fl` = None, LT, GT, EQ (V-J). -/
def jump (op : Byte) : List Word9 :=
  [Fl.none, .lt, .gt, .eq].map fun f => (after { start [(2, 0x30)] [] [op, 0x02] with fl := f }).pc

/-! ### WellFormed refuses -/

theorem test_wf_refuses_r : [Instr.push 8, .pop 8, .prn 9, .pra 0xFF, .call 8, .jmp 8, .jeq 8, .jne 8, .jgt 8, .jlt 8, .jle 8,
  .jge 8, .inc 8, .dec 8, .not 8].all (fun i => !i.wf) = true := by decide
theorem test_wf_refuses_ri : (Instr.ldi 8 0).wf = false := by decide
theorem test_wf_refuses_rr_first : [Instr.ld 8 0, .st 8 0, .add 8 0, .sub 8 0, .mul 8 0, .div 8 0, .mod 8 0, .cmp 8 0, .and 8 0,
  .or 8 0, .xor 8 0, .shl 8 0, .shr 8 0].all (fun i => !i.wf) = true := by decide
theorem test_wf_refuses_rr_second : [Instr.ld 0 8, .st 0 8, .add 0 8, .sub 0 8, .mul 0 8, .div 0 8, .mod 0 8, .cmp 0 8, .and 0 8,
  .or 0 8, .xor 0 8, .shl 0 8, .shr 0 8].all (fun i => !i.wf) = true := by decide
theorem test_wf_refuses_int_without_byte : (Instr.int none).wf = false := by decide
theorem test_wf_accepts : [Instr.nop, .int (some 0xFF), .ldi 7 0xFF, .st 7 7, .inc 7].all Instr.wf = true := by decide

/-! ### Decoding: words written out bit by bit from 30_encoding.md R54 -/

theorem test_decode_nop : decode [0b00000000] = .ok (.nop, []) := rfl
theorem test_decode_hlt : decode [0b00000001] = .ok (.hlt, []) := rfl
theorem test_decode_ret : decode [0b00010001] = .ok (.ret, []) := rfl
theorem test_decode_iret : decode [0b00010011] = .ok (.iret, []) := rfl
theorem test_decode_push : decode [0b01000101, 0b00000011] = .ok (.push 3, []) := rfl
theorem test_decode_pop : decode [0b01000110, 0b00000100] = .ok (.pop 4, []) := rfl
theorem test_decode_prn : decode [0b01000111, 0b00000000] = .ok (.prn 0, []) := rfl
theorem test_decode_pra : decode [0b01001000, 0b00000111] = .ok (.pra 7, []) := rfl
theorem test_decode_call : decode [0b01010000, 0b00000001] = .ok (.call 1, []) := rfl
theorem test_decode_int : decode [0b01010010, 0b11111111] = .ok (.int (some 0xFF), []) := rfl
theorem test_decode_jmp : decode [0b01010100, 0b00000110] = .ok (.jmp 6, []) := rfl
theorem test_decode_jeq : decode [0b01010101, 0b00000101] = .ok (.jeq 5, []) := rfl
theorem test_decode_jne : decode [0b01010110, 0b00000010] = .ok (.jne 2, []) := rfl
theorem test_decode_jgt : decode [0b01010111, 0b00000011] = .ok (.jgt 3, []) := rfl
theorem test_decode_jlt : decode [0b01011000, 0b00000001] = .ok (.jlt 1, []) := rfl
theorem test_decode_jle : decode [0b01011001, 0b00000000] = .ok (.jle 0, []) := rfl
theorem test_decode_jge : decode [0b01011010, 0b00000010] = .ok (.jge 2, []) := rfl
theorem test_decode_inc : decode [0b01100101, 0b00000111] = .ok (.inc 7, []) := rfl
theorem test_decode_dec : decode [0b01100110, 0b00000110] = .ok (.dec 6, []) := rfl
theorem test_decode_not : decode [0b01101001, 0b00000010] = .ok (.not 2, []) := rfl
theorem test_decode_ldi : decode [0b10000010, 0b00000000, 0b10000000] = .ok (.ldi 0 0x80, []) := rfl
theorem test_decode_ld : decode [0b10000011, 0b00000010, 0b00000100] = .ok (.ld 2 4, []) := rfl
theorem test_decode_st : decode [0b10000100, 0b00000100, 0b00000001] = .ok (.st 4 1, []) := rfl
theorem test_decode_add : decode [0b10100000, 0b00000111, 0b00000000] = .ok (.add 7 0, []) := rfl
theorem test_decode_sub : decode [0b10100001, 0b00000000, 0b00000001] = .ok (.sub 0 1, []) := rfl
theorem test_decode_mul : decode [0b10100010, 0b00000010, 0b00000011] = .ok (.mul 2 3, []) := rfl
theorem test_decode_div : decode [0b10100011, 0b00000011, 0b00000010] = .ok (.div 3 2, []) := rfl
theorem test_decode_mod : decode [0b10100100, 0b00000100, 0b00000101] = .ok (.mod 4 5, []) := rfl
theorem test_decode_cmp : decode [0b10100111, 0b00000101, 0b00000110] = .ok (.cmp 5 6, []) := rfl
theorem test_decode_and : decode [0b10101000, 0b00000110, 0b00000111] = .ok (.and 6 7, []) := rfl
theorem test_decode_or : decode [0b10101010, 0b00000001, 0b00000000] = .ok (.or 1 0, []) := rfl
theorem test_decode_xor : decode [0b10101011, 0b00000000, 0b00000111] = .ok (.xor 0 7, []) := rfl
theorem test_decode_shl : decode [0b10101100, 0b00000010, 0b00000001] = .ok (.shl 2 1, []) := rfl
theorem test_decode_shr : decode [0b10101101, 0b00000001, 0b00000010] = .ok (.shr 1 2, []) := rfl

/-- 34 different bytes are opcodes, so 222 are not; among those are the near misses under V-F8. -/
theorem test_decode_assigned_count : (Mnemonic.all.map opcodeMap).dedup.length = 34 := by decide
theorem test_decode_near_misses :
  [0x02, 0x10, 0x12, 0x44, 0x49, 0x51, 0x53, 0x5B, 0x64, 0x67, 0x68, 0x80, 0x81, 0x85, 0xA5, 0xA6, 0xA9, 0xAE, 0xAF].all
    (fun b => dispatchTable opcodeMap b == none) = true := by decide
theorem test_decode_missing_operand : decode [0xA0, 0x00] = .error .missingOperand := rfl
theorem test_decode_nothing : decode [] = .error .noOpcode := rfl
theorem test_decode_int_at_top : decode [0x52] = .ok (.int none, []) := rfl
theorem test_table_word : decodeTableWord 24 0x0100A0 = some (.add 0 1) ∧ decodeTableWord 8 0x82 = some (.ldi 0 0) ∧
  decodeTableWord 8 0x02 = none := by decide
theorem test_with_fetch_word : (after (State.reset.withFetchWord 24 0x080082)).reg 0 = 8 ∧
  (after (State.reset.withFetchWord 16 0x0265)).reg 2 = 1 := by decide

/-! ### Arithmetic and logic (V-ALU, V-UN, V-CMP) -/

theorem test_add : alu 0xA0 0xC8 0x64 = (0x2C, 0x13) ∧ alu 0xA0 0xFF 0x01 = (0x00, 0x13) := by decide
theorem test_add_into_sp : (after (start [(0, 1)] [] [0xA0, 0x07, 0x00])).sp = 0x00 := by decide
theorem test_sub : alu 0xA1 0x05 0x09 = (0xFC, 0x13) ∧ alu 0xA1 0x00 0xFF = (0x01, 0x13) := by decide
theorem test_mul : alu 0xA2 0xFF 0xFF = (0x01, 0x13) ∧ alu 0xA2 0x11 0x11 = (0x21, 0x13) := by decide
theorem test_div : alu 0xA3 0xFF 0x10 = (0x0F, 0x13) ∧ alu 0xA3 0x07 0x02 = (0x03, 0x13) := by decide
theorem test_div_zero : (after (start [(0, 7)] [] [0xA3, 0x00, 0x01])).run =
  .faulted .arithmeticFault ⟨0x10, #v[some 0xA3, some 0x00, some 0x01], #v[7, 0, 0, 0, 0, 0, 0, 0xFF]⟩ := by decide
theorem test_mod : alu 0xA4 0x07 0x02 = (0x01, 0x13) ∧ alu 0xA4 0x05 0x09 = (0x05, 0x13) := by decide
theorem test_mod_zero : faultOf (after (start [] [] [0xA4, 0x00, 0x01])) = some .arithmeticFault := by decide
theorem test_and : alu 0xA8 0xCC 0xAA = (0x88, 0x13) := by decide
theorem test_or : alu 0xAA 0xCC 0xAA = (0xEE, 0x13) := by decide
theorem test_xor : alu 0xAB 0xCC 0xAA = (0x66, 0x13) := by decide
theorem test_shl : alu 0xAC 0x81 0x01 = (0x02, 0x13) ∧ alu 0xAC 0x01 0x08 = (0x00, 0x13) := by decide
theorem test_shl_count_is_whole_byte : alu 0xAC 0xFF 0xFF = (0x00, 0x13) ∧ alu 0xAC 0x55 0x00 = (0x55, 0x13) := by decide
theorem test_shr : alu 0xAD 0x81 0x01 = (0x40, 0x13) ∧ alu 0xAD 0xFF 0xC8 = (0x00, 0x13) := by decide
theorem test_shl_same_register : (after (start [(0, 3)] [] [0xAC, 0x00, 0x00])).reg 0 = 0x18 := by decide
theorem test_not : unary 0x69 0x0F = (0xF0, 0x12) := by decide
theorem test_inc : unary 0x65 0xFF = (0x00, 0x12) ∧ unary 0x65 0x7F = (0x80, 0x12) := by decide
theorem test_dec : unary 0x66 0x00 = (0xFF, 0x12) ∧ unary 0x66 0x80 = (0x7F, 0x12) := by decide
theorem test_cmp : [cmp 0x05 0x09, cmp 0x09 0x05, cmp 0x07 0x07] = [.lt, .gt, .eq] := by decide
theorem test_cmp_unsigned : [cmp 0x00 0xFF, cmp 0x80 0x7F] = [.lt, .gt] := by decide

/-! ### Data movement and output (V-DM) -/

theorem test_ldi : (after (start [] [] [0x82, 0x03, 0xFF])).reg 3 = 0xFF := by decide
theorem test_ldi_into_sp : (after (start [] [] [0x82, 0x07, 0x40])).sp = 0x40 := by decide
theorem test_ld : (after (start [(4, 0x80)] [(0x80, 0x06)] [0x83, 0x02, 0x04])).reg 2 = 0x06 := by decide
theorem test_ld_own_opcode : (after (start [(0, 0x10)] [] [0x83, 0x00, 0x00])).reg 0 = 0x83 := by decide
theorem test_st : (after (start [(4, 0x80), (1, 0x06)] [] [0x84, 0x04, 0x01])).mem.read 0x80 = 0x06 := by decide
theorem test_st_into_program :
  (after (start [(0, 0x13), (1, 0x01)] [] [0x84, 0x00, 0x01])).mem.read 0x13 = 0x01 := by decide
theorem test_prn : (after (start [(0, 0xFF)] [] [0x47, 0x00])).out = [.num 255] := by decide
theorem test_prn_text : Event.text (.num 17) = some "17" := by decide
theorem test_pra : (after (start [(0, 0xE9)] [] [0x48, 0x00])).out = [.chr 233] := by decide
theorem test_pra_text : Event.text (.chr 72) = some "H" ∧ Event.text (.chr 233) = none := by decide

/-! ### Stack (V-ST) -/

theorem test_push : (let t := after (start [(0, 0x2A)] [] [0x45, 0x00]); (t.sp, t.mem.read 0xFE, t.mem.read 0xFF, t.pc)) =
  (0xFE, 0x2A, 0x00, 0x12) := by decide
theorem test_push_sp : (after (start [] [] [0x45, 0x07])).mem.read 0xFE = 0xFE := by decide
theorem test_push_last_free_slot : (let t := after (start [(0, 0x2A), (7, 0x0C)] [] [0x45, 0x00]); (t.sp, t.mem.read 0x0B)) =
  (0x0B, 0x2A) := by decide
theorem test_push_collides :
  (let t := after (start [(0, 0x2A), (7, 0x0B)] [] [0x45, 0x00]); (faultOf t, t.sp, t.mem.read 0x0A, t.pc)) =
    (some .stackOverflow, 0x0A, 0x00, 0x10) := by decide
theorem test_pop : (let t := after (start [(7, 0xFE)] [(0xFE, 0x2A)] [0x46, 0x01]); (t.reg 1, t.sp, t.mem.read 0xFE)) =
  (0x2A, 0xFF, 0x2A) := by decide
theorem test_pop_sp : (after (start [(7, 0xFE)] [(0xFE, 0x41)] [0x46, 0x07])).sp = 0x42 := by decide
theorem test_pop_empty : faultOf (after (start [] [] [0x46, 0x00])) = some .stackUnderflow := by decide

/-! ### Control flow (V-CF, V-J) -/

theorem test_call : (let t := after { startAt 0x06 [0x50, 0x01] with regs := #v[0, 0x0B, 0, 0, 0, 0, 0, 0xFF], rh := 14 };
  (t.sp, t.mem.read 0xFE, t.pc)) = (0xFE, 0x08, 0x0B) := by decide
theorem test_call_at_254 : (after (startAt 254 [0x50, 0x00])).run =
  .faulted .outOfRangeAddress ⟨254, #v[some 0x50, some 0x00, none], #v[0, 0, 0, 0, 0, 0, 0, 0xFF]⟩ := by decide
theorem test_call_sp : (let t := after { startAt 0x00 [0x50, 0x07] with rh := 3 }; (t.sp, t.mem.read 0xFE, t.pc)) =
  (0xFE, 0x02, 0xFE) := by decide
theorem test_ret : (let t := after (start [(7, 0xFE)] [(0xFE, 0x08)] [0x11]); (t.pc, t.sp)) = (0x08, 0xFF) := by decide
theorem test_ret_empty : faultOf (after (start [] [] [0x11])) = some .stackUnderflow := by decide
theorem test_nop : (after (startAt 0x04 [0x00])).pc = 0x05 := by decide
theorem test_hlt : (after (startAt 0x0B [0x01])).run = .halted ∧ (after (startAt 0x0B [0x01])).pc = 0x0B := by decide
theorem test_int : (after (start [] [] [0x52, 0xFF])).pc = 0x12 := by decide
theorem test_int_at_top : (after (startAt 255 [0x52])).pc = 257 ∧
  faultOf (after { State.reset with pc := 257 }) = some .outOfRangeAddress := by decide
theorem test_iret : (let t := after (startAt 0x20 [0x13]); (t.pc, t.sp)) = (0x21, 0xFF) := by decide
theorem test_jmp : jump 0x54 = [0x30, 0x30, 0x30, 0x30] := by decide
theorem test_jeq : jump 0x55 = [0x12, 0x12, 0x12, 0x30] := by decide
theorem test_jne : jump 0x56 = [0x30, 0x30, 0x30, 0x12] := by decide
theorem test_jgt : jump 0x57 = [0x12, 0x12, 0x30, 0x12] := by decide
theorem test_jge : jump 0x5A = [0x12, 0x12, 0x30, 0x30] := by decide
theorem test_jlt : jump 0x58 = [0x12, 0x30, 0x12, 0x12] := by decide
theorem test_jle : jump 0x59 = [0x12, 0x30, 0x12, 0x30] := by decide
theorem test_jeq_bad_index : faultOf (after { start [] [] [0x55, 0x09] with fl := .lt }) = some .outOfRangeAddress := by decide

/-! ### Faults (V-F) -/

theorem test_bad_first_index : (after (startAt 0 [0x82, 0x08, 0x01, 0x01])).run =
  .faulted .outOfRangeAddress ⟨0, #v[some 0x82, some 0x08, some 0x01], #v[0, 0, 0, 0, 0, 0, 0, 0xFF]⟩ := by decide
theorem test_index_before_divisor : faultOf (after (start [] [] [0xA3, 0x09, 0x01])) = some .outOfRangeAddress := by decide
theorem test_no_third_byte : (after (startAt 254 [0x82, 0x00])).run =
  .faulted .outOfRangeAddress ⟨254, #v[some 0x82, some 0x00, none], #v[0, 0, 0, 0, 0, 0, 0, 0xFF]⟩ := by decide
theorem test_no_second_byte : (after (startAt 255 [0x47])).run =
  .faulted .outOfRangeAddress ⟨255, #v[some 0x47, none, none], #v[0, 0, 0, 0, 0, 0, 0, 0xFF]⟩ := by decide
theorem test_unassigned_at_255 : faultOf (after (startAt 255 [0xFF])) = some .unrecognizedOpcode := by decide
theorem test_unassigned_snapshot : (after (startAt 0 [0x02])).run =
  .faulted .unrecognizedOpcode ⟨0, #v[some 0x02, some 0x00, some 0x00], #v[0, 0, 0, 0, 0, 0, 0, 0xFF]⟩ := by decide
theorem test_fault_ordinals : [FaultKind.unrecognizedOpcode, .outOfRangeAddress, .stackOverflow, .arithmeticFault,
  .stackUnderflow].map FaultKind.ordinal = [1, 2, 3, 4, 5] := by decide
theorem test_flag_bits : [Fl.none, .lt, .gt, .eq].map Fl.bits = [0b000, 0b100, 0b010, 0b001] := by decide
theorem test_load : load [0x01] = .next { State.reset with mem := [(0, 0x01)], rh := 1 } := rfl
theorem test_load_too_long : load (List.replicate 257 0) = .refused (.imageTooLong 257) := by
  rw [load, List.length_replicate]; exact if_neg (by decide)

/-! ### Witnesses: for every statement with hypotheses, inputs that meet them together -/

/-- `ADD R0, R1` at 0x10 with 8 and 9. -/
def wAdd : State := start [(0, 0x08), (1, 0x09)] [] [0xA0, 0x00, 0x01]
/-- `PUSH R0` at 0x10 with room on the stack. -/
def wPush : State := start [(0, 0x2A)] [] [0x45, 0x00]
/-- `PUSH R0` at 0x10 whose decrement meets `rh`. -/
def wFull : State := start [(0, 0x2A), (7, 0x0B)] [] [0x45, 0x00]
/-- `POP R1` at 0x10 with one byte on the stack. -/
def wPop : State := start [(7, 0xFE)] [(0xFE, 0x2A)] [0x46, 0x01]
/-- `CALL R1` at 0x10. -/
def wCall : State := start [(1, 0x40)] [] [0x50, 0x01]
/-- `ST R0, R1` at 0x10 that stores HLT into the next instruction. -/
def wSt : State := start [(0, 0x13), (1, 0x01)] [] [0x84, 0x00, 0x01]
/-- `JMP R0` at 0x10 to itself. -/
def wLoop : State := start [(0, 0x10)] [] [0x54, 0x00]

theorem witness_DecodeInvertsEncode : Function.Injective opcodeMap ∧ (Instr.st 7 0).wf = true ∧
    (Instr.int (some 0xFF)).wf = true := ⟨opcodeMap_injective, by decide, by decide⟩

theorem witness_EncodeInvertsDecode : decodeWith opcodeMap [0xA0, 0x07, 0xFF, 0x01] = .ok (.add 7 0xFF, [0x01]) ∧
    decodeWith opcodeMap [0x52] = .ok (.int none, []) := ⟨rfl, rfl⟩

theorem witness_LengthKnownFromOpcode : Function.Injective opcodeMap ∧
    decodeWith opcodeMap (opcodeMap .LDI :: [0x08, 0x09, 0x01]) = .ok (.ldi 8 9, [0x01]) ∧
    decodeWith opcodeMap (opcodeMap .INT :: []) = .ok (.int none, []) := ⟨opcodeMap_injective, rfl, rfl⟩

theorem witness_LoadPlacesImageAndResetsTheRest :
    (List.replicate 256 (0x01 : Byte)).length ≤ 256 ∧ 256 < (List.replicate 257 (0x01 : Byte)).length ∧
      (0 : RegIdx) ≠ Config.spIndex := by
  rw [List.length_replicate, List.length_replicate]; decide

theorem witness_LoadMeetsInvariant : ∃ t, load [0x82, 0x00, 0x08, 0x01] = .next t ∧ t.rh = 4 := ⟨_, rfl, by decide⟩

theorem witness_StepRunsTheInstructionAtPc : wAdd.run = .running ∧ (Instr.add 0 1).wf = true ∧
    ∀ k (h : k < (encode (.add 0 1)).length), wAdd.byteAt (wAdd.pc.toNat + k) = some (encode (.add 0 1))[k] := by decide

theorem witness_StepDefinedExactlyWhenRunning :
    (step wAdd = .next (after wAdd) ∧ (after wAdd).run = .running) ∧
    (step (startAt 0 [0x01]) = .next (after (startAt 0 [0x01])) ∧ (after (startAt 0 [0x01])).run = .halted) ∧
    (step wFull = .next (after wFull) ∧ faultOf (after wFull) = some .stackOverflow) :=
  ⟨⟨rfl, by decide⟩, ⟨rfl, by decide⟩, ⟨rfl, by decide⟩⟩

theorem witness_FetchLatchesIrOrRaises :
    (({ State.reset with pc := 256 } : State).run = .running ∧ 255 < ({ State.reset with pc := 256 } : State).pc.toNat) ∧
    ((startAt 255 [0x11]).run = .running ∧ (startAt 255 [0x11]).pc.toNat ≤ 255 ∧
      step (startAt 255 [0x11]) = .next (after (startAt 255 [0x11]))) ∧
    ((startAt 255 [0x00]).run = .running ∧ (startAt 255 [0x00]).pc.toNat ≤ 255 ∧
      step (startAt 255 [0x00]) = .next (after (startAt 255 [0x00])) ∧ 255 < (after (startAt 255 [0x00])).pc.toNat) :=
  ⟨by decide, ⟨by decide, by decide, rfl⟩, by decide, by decide, rfl, by decide⟩

theorem witness_UnrecognizedOpcodeExactlyWhenUnassigned :
    ((startAt 255 [0xFF]).run = .running ∧ step (startAt 255 [0xFF]) = .next (after (startAt 255 [0xFF])) ∧
      faultOf (after (startAt 255 [0xFF])) = some .unrecognizedOpcode) ∧
    (wAdd.run = .running ∧ wAdd.pc.toNat ≤ 255 ∧ wAdd.mem.read wAdd.pc.toNat = opcodeMap .ADD ∧
      decode wAdd.fetchWindow = .ok (.add 0 1, [])) := ⟨⟨by decide, rfl, by decide⟩, by decide, by decide, by decide, rfl⟩

theorem witness_BadRegisterByteRaisesOutOfRange : hasBadIndex (.push 8) = true ∧ hasBadIndex (.add 0 0xFF) = true ∧
    hasBadIndex (.ldi 8 0) = true ∧ hasBadIndex (.int (some 8)) = false := by decide

/-- One running state for each of the five cases, (a) to (e). -/
theorem witness_OutOfRangeExactlyInFiveCases :
    [{ State.reset with pc := 256 }, startAt 255 [0x47], startAt 254 [0x82, 0x00], start [] [] [0x45, 0x08],
      startAt 254 [0x50, 0x00]].all (fun s => decide (s.run = .running) && decide (faultOf (after s) = some .outOfRangeAddress))
      = true := by decide

theorem witness_AddSubMulResults : regIndex 0x00 = some 0 ∧ regIndex 0x07 = some 7 := by decide

theorem witness_DivModResults : (regIndex 0x00 = some 0 ∧ regIndex 0x01 = some 1 ∧ wAdd.reg 1 ≠ 0) ∧
    (regIndex 0x00 = some 0 ∧ regIndex 0x02 = some 2 ∧ wAdd.reg 2 = 0) := by decide

theorem witness_AndOrXorResults : regIndex 0x00 = some 0 ∧ regIndex 0x07 = some 7 ∧ 7 < 8 := by decide

/-- Counts 7, 8 and 255, the last two in the clause of a count of 8 or more. -/
theorem witness_ShiftResults : regIndex 0x00 = some 0 ∧ regIndex 0x01 = some 1 ∧
    ((start [(1, 7)] [] []).reg 1).toNat ≤ 7 ∧ 8 ≤ ((start [(1, 8)] [] []).reg 1).toNat ∧
    8 ≤ ((start [(1, 0xFF)] [] []).reg 1).toNat := by decide

theorem witness_NotIncDecResults : regIndex 0x00 = some 0 ∧ regIndex 0x07 = some 7 := by decide

theorem witness_LoadInstructionResults : regIndex 0x00 = some 0 ∧ regIndex 0x07 = some 7 := by decide

theorem witness_PrintInstructionsAppendEvent : regIndex 0x00 = some 0 ∧ regIndex 0x07 = some 7 := by decide

theorem witness_JmpSetsPc : regIndex 0x00 = some 0 ∧ regIndex 0x07 = some 7 := by decide

theorem witness_CmpSetsFlagByUnsignedOrder : regIndex 0x00 = some 0 ∧ regIndex 0x01 = some 1 ∧
    [cmp 0 0, cmp 0 0xFF, cmp 0xFF 0] = [.eq, .lt, .gt] := by decide

theorem witness_StStoresOneByte : wSt.mem.wf = true ∧ regIndex 0x00 = some 0 ∧ regIndex 0x01 = some 1 := by decide

theorem witness_PushStoresOrOverflows :
    (wPush.mem.wf = true ∧ regIndex 0x00 = some 0 ∧ (wPush.sp - 1).toNat ≠ wPush.rh.toNat) ∧
    (wFull.mem.wf = true ∧ regIndex 0x00 = some 0 ∧ (wFull.sp - 1).toNat = wFull.rh.toNat) := by decide

theorem witness_PopLoadsOrUnderflows :
    (regIndex 0x01 = some 1 ∧ wPop.sp ≠ spInit ∧ (1 : RegIdx) ≠ Config.spIndex) ∧
    (regIndex 0x07 = some Config.spIndex ∧ wPop.sp ≠ spInit) ∧
    (regIndex 0x01 = some 1 ∧ wPush.sp = spInit) := by decide

theorem witness_PushThenPopCopies : wPush.mem.wf = true ∧ regIndex 0x00 = some 0 ∧ regIndex 0x01 = some 1 ∧
    (0 : RegIdx) ≠ Config.spIndex ∧ (1 : RegIdx) ≠ Config.spIndex ∧ (wPush.sp - 1).toNat ≠ wPush.rh.toNat ∧
    wPush.sp - 1 ≠ spInit := by decide

theorem witness_PushesOverflowAtTheExactPush : wPush.run = .running ∧ regIndex 0x00 = some 0 ∧
    wPush.rh.toNat < wPush.sp.toNat ∧ 1 < wPush.sp.toNat - wPush.rh.toNat - 1 ∧
    (wFull.run = .running ∧ wFull.rh.toNat < wFull.sp.toNat ∧ wFull.sp.toNat - wFull.rh.toNat - 1 = 0) := by decide

theorem witness_CallPushesReturnAddressOrFaults :
    (wCall.mem.wf = true ∧ regIndex 0x01 = some 1 ∧ wCall.pc.toNat + 2 ≤ 255 ∧ (wCall.sp - 1).toNat ≠ wCall.rh.toNat) ∧
    (wFull.mem.wf = true ∧ wFull.pc.toNat + 2 ≤ 255 ∧ (wFull.sp - 1).toNat = wFull.rh.toNat) ∧
    ((startAt 253 [0x50]).mem.wf = true ∧ (startAt 253 [0x50]).pc.toNat + 2 ≤ 255) ∧
    ((startAt 254 [0x50]).mem.wf = true ∧ 255 < (startAt 254 [0x50]).pc.toNat + 2) := by decide

theorem witness_RetPopsPcOrUnderflows : wPop.sp ≠ spInit ∧ wPush.sp = spInit := by decide

/-- The state of a RET at 0x50 that ends the subroutine of `wCall`, with the byte that a nested call left below the stack. -/
def wReturn : State :=
  let t := effect (.call 1) wCall
  { t with pc := 0x50, mem := t.mem.write 0xFD 0x44 }

theorem witness_RetResumesAfterCall : wCall.mem.wf = true ∧ regIndex 0x01 = some 1 ∧ wCall.pc.toNat + 2 ≤ 255 ∧
    (wCall.sp - 1).toNat ≠ wCall.rh.toNat ∧ wCall.sp - 1 ≠ spInit ∧
    exec (.call 1) wCall = .next (effect (.call 1) wCall) ∧ wReturn.sp = (effect (.call 1) wCall).sp ∧
    wReturn.mem.read (effect (.call 1) wCall).sp.toNat =
      (effect (.call 1) wCall).mem.read (effect (.call 1) wCall).sp.toNat ∧
    wReturn.mem ≠ (effect (.call 1) wCall).mem :=
  ⟨by decide, by decide, by decide, by decide, by decide, rfl, by decide, by decide, by decide⟩

theorem witness_ConditionalJumpsFollowTable : regIndex 0x02 = some 2 ∧ regIndex 0x08 = none ∧
    ((startAt 255 [0x55]).run = .running ∧ (startAt 255 [0x55]).pc = 255 ∧
      (startAt 255 [0x55]).mem.read 255 = opcodeMap .JEQ) := by decide

theorem witness_RegistersChangeOnlyAsTabulated : exec (.add 0 1) wAdd = .next (effect (.add 0 1) wAdd) ∧
    (effect (.add 0 1) wAdd).reg 0 ≠ wAdd.reg 0 := ⟨rfl, by decide⟩

theorem witness_MemoryChangesOnlyAtStoreAddress : exec (.push 0) wPush = .next (effect (.push 0) wPush) ∧
    storeAddress (.push 0) wPush = some 0xFE ∧ storeAddress (.push 0) wPush ≠ some 0xFF := ⟨rfl, by decide, by decide⟩

theorem witness_FlagsWrittenByCmpReadByJumps :
    (exec (.cmp 0 1) wAdd = .next (effect (.cmp 0 1) wAdd) ∧ (effect (.cmp 0 1) wAdd).fl ≠ wAdd.fl) ∧
    (step { wAdd with fl := .lt } = .next (after { wAdd with fl := .lt }) ∧ ({ wAdd with fl := .lt } : State).fl ≠ .none) ∧
    ((Instr.add 0 1).mnemonic ∉ [Mnemonic.JEQ, .JNE, .JGT, .JGE, .JLT, .JLE] ∧
      exec (.add 0 1) wAdd = .next (effect (.add 0 1) wAdd)) :=
  ⟨⟨rfl, by decide⟩, ⟨rfl, by decide⟩, by decide, rfl⟩

theorem witness_HeapBoundaryIsConstant : exec (.push 0) wPush = .next (effect (.push 0) wPush) := rfl

theorem witness_OutputIsAppendOnly : exec (.prn 1) wAdd = .next (effect (.prn 1) wAdd) ∧
    (effect (.prn 1) wAdd).out ≠ wAdd.out := ⟨rfl, by decide⟩

theorem witness_PcAdvancesByLengthOrJumps :
    (wAdd.run = .running ∧ exec (.add 0 1) wAdd = .next (effect (.add 0 1) wAdd) ∧ (effect (.add 0 1) wAdd).run = .running) ∧
    (wFull.run = .running ∧ exec (.push 0) wFull = .next (effect (.push 0) wFull) ∧
      (effect (.push 0) wFull).run ≠ .running) := ⟨⟨by decide, rfl, by decide⟩, by decide, rfl, by decide⟩

theorem witness_FaultLeavesStateFrozen :
    (step (startAt 0 [0x02]) = .next (after (startAt 0 [0x02])) ∧
      faultOf (after (startAt 0 [0x02])) = some .unrecognizedOpcode) ∧
    (step wFull = .next (after wFull) ∧ faultOf (after wFull) = some .stackOverflow) :=
  ⟨⟨rfl, by decide⟩, rfl, by decide⟩

theorem witness_StackOverflowExactlyAtHeapBoundary : wFull.run = .running ∧
    exec (.push 0) wFull = .next (effect (.push 0) wFull) ∧ faultOf (effect (.push 0) wFull) = some .stackOverflow ∧
    exec (.call 0) wFull = .next (effect (.call 0) wFull) ∧ faultOf (effect (.call 0) wFull) = some .stackOverflow :=
  ⟨by decide, rfl, by decide, rfl, by decide⟩

theorem witness_StackUnderflowExactlyWhenEmpty : wPush.run = .running ∧
    exec .ret wPush = .next (effect .ret wPush) ∧ faultOf (effect .ret wPush) = some .stackUnderflow ∧
    exec (.pop 0) wPush = .next (effect (.pop 0) wPush) ∧ faultOf (effect (.pop 0) wPush) = some .stackUnderflow :=
  ⟨by decide, rfl, by decide, rfl, by decide⟩

theorem witness_ArithmeticFaultExactlyOnZeroDivisor : wAdd.run = .running ∧
    exec (.div 0 2) wAdd = .next (effect (.div 0 2) wAdd) ∧ faultOf (effect (.div 0 2) wAdd) = some .arithmeticFault ∧
    exec (.mod 0 2) wAdd = .next (effect (.mod 0 2) wAdd) ∧ faultOf (effect (.mod 0 2) wAdd) = some .arithmeticFault :=
  ⟨by decide, rfl, by decide, rfl, by decide⟩

theorem witness_HaltedAndFaultedAreAbsorbing : (after (startAt 0 [0x01])).run ≠ .running ∧ (after wFull).run ≠ .running := by
  decide

theorem witness_CanonicalMemoryDeterminedByReads :
    Memory.wf (Memory.write (Memory.write [] 5 1) 3 2) = true ∧ Memory.wf (Memory.write (Memory.write [] 3 2) 5 1) = true ∧
    ∀ a, a < 256 → (Memory.write (Memory.write [] 5 1) 3 2).read a = (Memory.write (Memory.write [] 3 2) 5 1).read a :=
  ⟨by decide, by decide, fun _ _ => rfl⟩

/-- `PUSH R0` at 0x10 that stores into the second byte of the next instruction. -/
def wPushAhead : State := start [(0, 0x2A), (7, 0x14)] [] [0x45, 0x00]
/-- `CALL R1` at 0x10 to 0x40, which stores its return address into the third byte of the instruction there. -/
def wCallAhead : State := start [(1, 0x40), (7, 0x43)] [] [0x50, 0x01]

/-- ST to the next opcode, PUSH to its first operand byte, CALL to its second. -/
theorem witness_StoreSeenByNextFetch :
    (wSt.mem.wf = true ∧ decode wSt.fetchWindow = .ok (.st 0 1, []) ∧ storeAddress (.st 0 1) wSt = some 0x13 ∧
      storeValue (.st 0 1) wSt = some 0x01 ∧ step wSt = .next (after wSt) ∧ (after wSt).run = .running ∧
      (after wSt).pc.toNat = 0x13 ∧ step (after wSt) = .next (after (after wSt))) ∧
    (wPushAhead.mem.wf = true ∧ decode wPushAhead.fetchWindow = .ok (.push 0, [0x00]) ∧
      storeAddress (.push 0) wPushAhead = some 0x13 ∧ storeValue (.push 0) wPushAhead = some 0x2A ∧
      step wPushAhead = .next (after wPushAhead) ∧ (after wPushAhead).run = .running ∧
      (after wPushAhead).pc.toNat + 1 = 0x13) ∧
    (wCallAhead.mem.wf = true ∧ decode wCallAhead.fetchWindow = .ok (.call 1, [0x00]) ∧
      storeAddress (.call 1) wCallAhead = some 0x42 ∧ storeValue (.call 1) wCallAhead = some 0x12 ∧
      step wCallAhead = .next (after wCallAhead) ∧ (after wCallAhead).run = .running ∧
      (after wCallAhead).pc.toNat + 2 = 0x42) :=
  ⟨⟨by decide, rfl, by decide, by decide, rfl, by decide, by decide, rfl⟩,
    ⟨by decide, rfl, by decide, by decide, rfl, by decide, by decide⟩,
    by decide, rfl, by decide, by decide, rfl, by decide, by decide⟩

theorem witness_EveryStepKeepsInvariant : wPush.Inv ∧ step wPush = .next (after wPush) ∧ (after wPush).mem ≠ wPush.mem :=
  ⟨⟨by decide, by decide, by decide, nofun, nofun, nofun⟩, rfl, by decide⟩

theorem witness_InstructionRegisterIsNoInput : step wAdd = .next (after wAdd) ∧
    step (startAt 255 [0x00]) = .next (after (startAt 255 [0x00])) ∧
    step { State.reset with pc := 256 } = .next (after { State.reset with pc := 256 }) := ⟨rfl, rfl, rfl⟩

theorem witness_RunFuelComposes : step wAdd = .next (after wAdd) := rfl

theorem witness_NopSlideRunsOffTheTop : ∀ p ∈ [(250 : Word9), 255],
    ({ State.reset with pc := p } : State).run = .running ∧ ({ State.reset with pc := p } : State).pc.toNat ≤ 255 ∧
    ∀ a, ({ State.reset with pc := p } : State).pc.toNat ≤ a → a < 256 →
      ({ State.reset with pc := p } : State).mem.read a = opcodeMap .NOP :=
  fun p hp => ⟨rfl, (by decide : ∀ p ∈ [(250 : Word9), 255], p.toNat ≤ 255) p hp, fun _ _ _ => rfl⟩

theorem witness_JumpToItselfNeverEnds : wLoop.run = .running ∧ wLoop.pc.toNat + 1 ≤ 255 ∧
    wLoop.mem.read wLoop.pc.toNat = opcodeMap .JMP ∧ wLoop.mem.read (wLoop.pc.toNat + 1) = RegIdx.byte 0 ∧
    (wLoop.reg 0).toNat = wLoop.pc.toNat := by decide

/-- One state for each clause: halted, running with a next state, and with an end that a budget reaches. -/
theorem witness_RunIsTheIterationOfStep : (after (startAt 0 [0x01])).run ≠ .running ∧ step wAdd = .next (after wAdd) ∧
    runFuel 1 (startAt 0 [0x01]) = after (startAt 0 [0x01]) ∧
    (startAt 0 [0x01]).runsTo (after (startAt 0 [0x01])) := ⟨by decide, rfl, rfl, by decide, 1, rfl⟩

end Sys2Proof.Tests
end

/-! ### The flags frame (10_state.md R18)

Setting `fl` commutes with every shared operation, hence with every instruction other than CMP and the conditional jumps.
That such an instruction does not read `fl` and that it does not write it both follow from this one equation. -/

namespace Sys2Proof.Machine

/-- The six instructions that read `fl` (44_control_flow.md R143). -/
abbrev conditionalJumps : List Mnemonic := [.JEQ, .JNE, .JGT, .JGE, .JLT, .JLE]

/-- The same state with another `fl`. -/
def State.withFl (s : State) (f : Fl) : State := { s with fl := f }

/-- The same answer, its next state (if there is one) with another `fl`. -/
def resultWithFl (f : Fl) : Result → Result
  | .next t => .next (t.withFl f)
  | .fault r => .fault r
  | .refused r => .refused r

variable {s t : State} {f : Fl} {i : Instr}

@[simp] theorem withFl_fl : (s.withFl f).fl = f := rfl

@[simp] theorem withFl_self : s.withFl s.fl = s := rfl

/-! ### Setting `fl` commutes with the shared operations -/

theorem withReg_withFl {b : Byte} {next next' : RegIdx → Result} (hn : ∀ r, next' r = resultWithFl f (next r)) :
    withReg b (s.withFl f) next' = resultWithFl f (withReg b s next) := by
  cases hb : regIndex b with
  | some r => rw [withReg_some hb, withReg_some hb, hn]
  | none => rw [withReg_none hb, withReg_none hb]; rfl

theorem withRegs_withFl {b1 b2 : Byte} {next next' : RegIdx → RegIdx → Result}
    (hn : ∀ a b, next' a b = resultWithFl f (next a b)) :
    withRegs b1 b2 (s.withFl f) next' = resultWithFl f (withRegs b1 b2 s next) :=
  withReg_withFl fun a => withReg_withFl (hn a)

theorem withPush_withFl {value value' : State → Byte} {next : State → Result}
    (hv : ∀ u : State, value' (u.withFl f) = value u) (hn : ∀ u : State, next (u.withFl f) = resultWithFl f (next u)) :
    withPush value' (s.withFl f) next = resultWithFl f (withPush value s next) := by
  rw [withPush_eq, withPush_eq]
  by_cases full : (s.sp - 1).toNat = s.rh.toNat
  · rw [if_pos full]; exact if_pos full
  · rw [if_neg full, ← hn, ← hv]; exact if_neg full

theorem withPopped_withFl {next next' : Byte → Result} (hn : ∀ v, next' v = resultWithFl f (next v)) :
    withPopped (s.withFl f) next' = resultWithFl f (withPopped s next) := by
  rw [withPopped_eq, withPopped_eq]
  by_cases empty : s.sp = spInit
  · rw [if_pos empty]; exact if_pos empty
  · rw [if_neg empty, ← hn]; exact if_neg empty

theorem alu1_withFl (g : Byte → Byte) (b : Byte) : alu1 g b (s.withFl f) = resultWithFl f (alu1 g b s) :=
  withReg_withFl fun _ => rfl

theorem alu2_withFl (g : Byte → Byte → Byte) (b1 b2 : Byte) :
    alu2 g b1 b2 (s.withFl f) = resultWithFl f (alu2 g b1 b2 s) :=
  withRegs_withFl fun _ _ => rfl

theorem aluDivide_withFl (g : Byte → Byte → Byte) (b1 b2 : Byte) :
    aluDivide g b1 b2 (s.withFl f) = resultWithFl f (aluDivide g b1 b2 s) :=
  withRegs_withFl fun a b => by
    by_cases zero : s.reg b = 0
    · rw [if_pos zero]; exact if_pos zero
    · rw [if_neg zero]; exact if_neg zero

theorem execCall_withFl (b : Byte) : execCall b (s.withFl f) = resultWithFl f (execCall b s) :=
  withReg_withFl fun i => by
    by_cases room : s.pc.toNat + 2 < Config.memSize
    · rw [if_pos room]
      exact (if_pos room).trans (withPush_withFl (fun _ => rfl) fun _ => rfl)
    · rw [if_neg room]; exact if_neg room

/-! ### The instructions -/

/-- Every instruction that does not touch `fl` commutes with setting it. -/
theorem exec_withFl (hcmp : ¬ ∃ a b, i = .cmp a b) (hjump : i.mnemonic ∉ conditionalJumps) :
    exec i (s.withFl f) = resultWithFl f (exec i s) := by
  cases i with
  | cmp a b => exact absurd ⟨a, b, rfl⟩ hcmp
  | jeq r | jne r | jgt r | jge r | jlt r | jle r => simp [conditionalJumps, Instr.mnemonic] at hjump
  | nop | hlt | iret | int r => rfl
  | push r => exact withReg_withFl fun _ => withPush_withFl (fun _ => rfl) fun _ => rfl
  | pop r => exact withReg_withFl fun _ => withPopped_withFl fun _ => rfl
  | ret => exact withPopped_withFl fun _ => rfl
  | call r => exact execCall_withFl r
  | prn r | pra r | jmp r | ldi r imm => exact withReg_withFl fun _ => rfl
  | ld a b => exact withRegs_withFl fun _ _ => by rw [withMemRead_byte, withMemRead_byte]; rfl
  | st a b => exact withRegs_withFl fun _ _ => by rw [withMemWrite_byte, withMemWrite_byte]; rfl
  | inc r | dec r | not r => exact alu1_withFl _ r
  | add a b | sub a b | mul a b | and a b | or a b | xor a b | shl a b | shr a b => exact alu2_withFl _ a b
  | div a b | mod a b => exact aluDivide_withFl _ a b

theorem execCmp_cases {b1 b2 : Byte} (h : execCmp b1 b2 s = .next t) :
    (∃ a b, regIndex b1 = some a ∧ regIndex b2 = some b ∧
      t = (s.withFl (compareFl (s.reg a) (s.reg b))).advance 3) ∨
      ((regIndex b1 = none ∨ regIndex b2 = none) ∧ t = s.faultedWith .outOfRangeAddress) := by
  rcases withRegs_cases h with ⟨a, b, ha, hb, h⟩ | h
  · exact .inl ⟨a, b, ha, hb, by injection h with h; exact h.symm⟩
  · exact .inr h

theorem jumpIf_fl {c : Cond} {b : Byte} (h : jumpIf c b s = .next t) : t.fl = s.fl := by
  rcases jumpIf_cases h with ⟨r, -, ⟨-, rfl⟩ | ⟨-, rfl⟩⟩ | ⟨-, rfl⟩ <;> rfl

theorem execCmp_fl {b1 b2 : Byte} (h : execCmp b1 b2 s = .next t) : t.fl = s.fl ∨ t.fl ≠ .none := by
  rcases execCmp_cases h with ⟨a, b, -, -, rfl⟩ | ⟨-, rfl⟩
  · exact .inr (compareFl_ne_none _ _)
  · exact .inl rfl

/-- An instruction that commutes with setting `fl` keeps it: set it to the value it has. -/
theorem fl_of_exec_withFl (hcomm : exec i (s.withFl s.fl) = resultWithFl s.fl (exec i s)) (h : exec i s = .next t) :
    t.fl = s.fl := by
  rw [withFl_self, h] at hcomm
  injection hcomm with ht
  rw [ht, withFl_fl]

/-- What an instruction can do to `fl` (10_state.md R18). -/
theorem exec_fl (h : exec i s = .next t) : t.fl = s.fl ∨ ∃ a b, i = .cmp a b ∧ t.fl ≠ .none := by
  by_cases hjump : i.mnemonic ∈ conditionalJumps
  · left
    cases i with
    | jeq r | jne r | jgt r | jge r | jlt r | jle r => exact jumpIf_fl h
    | _ => simp [conditionalJumps, Instr.mnemonic] at hjump
  · by_cases hcmp : ∃ a b, i = .cmp a b
    · obtain ⟨a, b, rfl⟩ := hcmp
      exact (execCmp_fl h).imp_right fun hne => ⟨a, b, rfl, hne⟩
    · exact .inl (fl_of_exec_withFl (exec_withFl hcmp hjump) h)

theorem step_fl_ne_none (h : step s = .next t) (hs : s.fl ≠ .none) : t.fl ≠ .none := by
  obtain ⟨-, ⟨e, -, rfl⟩ | ⟨i, rest, -, h⟩⟩ := step_cases h
  · simpa using hs
  · rcases exec_fl h with hfl | ⟨a, b, -, hne⟩
    · rwa [hfl, latchIr_fl]
    · exact hne

/-- CMP does not read `fl`: with legal registers it overwrites it, and otherwise it faults and carries it along. -/
theorem execCmp_withFl {b1 b2 : Byte} (f : Fl) (h : execCmp b1 b2 s = .next t) :
    execCmp b1 b2 (s.withFl f) = .next t ∨
      (execCmp b1 b2 (s.withFl f) = .next (t.withFl f) ∧ t.run ≠ .running) := by
  rcases execCmp_cases h with ⟨a, b, ha, hb, rfl⟩ | ⟨hbad, rfl⟩
  · exact .inl (withRegs_some ha hb _)
  · exact .inr ⟨withRegs_none hbad _, nofun⟩

/-- An instruction other than a conditional jump does the same to everything but `fl`, whatever `fl` is, and a CMP that
runs on writes the same `fl`. -/
theorem exec_independent_of_fl (f : Fl) (hjump : i.mnemonic ∉ conditionalJumps)
    (h : exec i s = .next t) :
    ∃ t', exec i (s.withFl f) = .next t' ∧ t'.withFl t.fl = t ∧
      ((∃ a b, i = .cmp a b) → t'.run = .running → t'.fl = t.fl) := by
  by_cases hcmp : ∃ a b, i = .cmp a b
  · obtain ⟨a, b, rfl⟩ := hcmp
    rcases execCmp_withFl f h with h' | ⟨h', hstop⟩
    · exact ⟨t, h', rfl, fun _ _ => rfl⟩
    · exact ⟨t.withFl f, h', rfl, fun _ hrun => absurd hrun hstop⟩
  · have hcomm : exec i (s.withFl f) = resultWithFl f (exec i s) := exec_withFl hcmp hjump
    rw [h] at hcomm
    exact ⟨t.withFl f, hcomm, rfl, fun hi => absurd hi hcmp⟩

/-- Settles O37, from what an instruction can do to `fl` and from its commuting with a change of `fl`. -/
theorem flagsWrittenByCmpReadByJumps : Obligations.FlagsWrittenByCmpReadByJumps := by
  refine ⟨fun i s t h hne => (exec_fl h).resolve_left hne, fun s t => step_fl_ne_none, ?_, fun s f => rfl⟩
  intro i s t f hjump h
  obtain ⟨t', h', hrest, hcmp⟩ := exec_independent_of_fl f hjump h
  exact ⟨t', h', hrest, fun ⟨a, b, hi, hrun⟩ _ => hcmp ⟨a, b, hi⟩ hrun⟩

end Sys2Proof.Machine

/-! ### A store is seen by the next fetch (20_memory.md R42)

The three instructions that store do so by one write of the memory, `exec_mem_of_store`, and a fetch reads nothing but the
memory, `fetchWindow_getElem?` and `step_ir`. -/

namespace Sys2Proof.Machine

variable {s t : State} {i : Instr}

theorem faultedWith_not_running (k : FaultKind) : (s.faultedWith k).run ≠ .running := nofun

/-! ### What the storing instructions can do -/

/-- Everything ST can do (42_data_move.md R112). -/
theorem execSt_cases {b1 b2 : Byte} (h : execSt b1 b2 s = .next t) :
    (∃ a b, regIndex b1 = some a ∧ regIndex b2 = some b ∧
      t = { s with mem := s.mem.write (s.reg a).toNat (s.reg b) }.advance 3) ∨
      ((regIndex b1 = none ∨ regIndex b2 = none) ∧ t = s.faultedWith .outOfRangeAddress) := by
  rcases withRegs_cases h with ⟨a, b, ha, hb, h⟩ | h
  · rw [withMemWrite_byte] at h
    exact .inl ⟨a, b, ha, hb, by injection h with h; exact h.symm⟩
  · exact .inr h

/-- Everything PUSH can do (43_stack.md R122). -/
theorem execPush_cases {b : Byte} (h : execPush b s = .next t) :
    (∃ r, regIndex b = some r ∧
      (((s.sp - 1).toNat = s.rh.toNat ∧ t = s.decSp.faultedWith .stackOverflow) ∨
        ((s.sp - 1).toNat ≠ s.rh.toNat ∧
          t = { s.decSp with mem := s.mem.write (s.sp - 1).toNat (s.decSp.reg r) }.advance 2))) ∨
      (regIndex b = none ∧ t = s.faultedWith .outOfRangeAddress) := by
  rcases withReg_cases h with ⟨r, hr, h⟩ | h
  · refine .inl ⟨r, hr, ?_⟩
    rcases withPush_cases h with h | ⟨room, h⟩
    · exact .inl h
    · exact .inr ⟨room, by injection h with h; exact h.symm⟩
  · exact .inr h

/-- Everything CALL can do (44_control_flow.md R130). -/
theorem execCall_cases {b : Byte} (h : execCall b s = .next t) :
    (∃ r, regIndex b = some r ∧
      ((s.pc.toNat + 2 < Config.memSize ∧
        (((s.sp - 1).toNat = s.rh.toNat ∧ t = s.decSp.faultedWith .stackOverflow) ∨
          ((s.sp - 1).toNat ≠ s.rh.toNat ∧
            t = { s.decSp with
              mem := s.mem.write (s.sp - 1).toNat (BitVec.ofNat 8 (s.pc.toNat + 2)) }.jumpTo (s.decSp.reg r)))) ∨
        (Config.memSize ≤ s.pc.toNat + 2 ∧ t = s.faultedWith .outOfRangeAddress))) ∨
      (regIndex b = none ∧ t = s.faultedWith .outOfRangeAddress) := by
  rcases withReg_cases h with ⟨r, hr, h⟩ | h
  · refine .inl ⟨r, hr, ?_⟩
    split at h
    · rename_i fits
      refine .inl ⟨fits, ?_⟩
      rcases withPush_cases h with h | ⟨room, h⟩
      · exact .inl h
      · exact .inr ⟨room, by injection h with h; exact h.symm⟩
    · rename_i above
      exact .inr ⟨Nat.not_lt.1 above, by injection h with h; exact h.symm⟩
  · exact .inr h

/-! ### The store itself -/

@[simp] theorem storeAddress_latchIr : storeAddress i s.latchIr = storeAddress i s := by
  unfold State.latchIr; split <;> rfl

@[simp] theorem storeValue_latchIr : storeValue i s.latchIr = storeValue i s := by
  unfold State.latchIr; split <;> rfl

/-- The address of a store is a byte, so it is an address of the memory (20_memory.md R45). -/
theorem storeAddress_lt {a : Nat} (h : storeAddress i s = some a) : a < Config.memSize := by
  cases i with
  | st b1 b2 =>
    obtain ⟨r, -, rfl⟩ := Option.map_eq_some_iff.1 h
    exact byte_in_memory _
  | push b | call b =>
    injection h with h
    exact h ▸ byte_in_memory _
  | _ => cases h

/-- An instruction that stores and runs on writes `storeValue` at `storeAddress`, and no other cell (20_memory.md R38). -/
theorem exec_mem_of_store {a : Nat} {v : Byte} (h : exec i s = .next t) (hrun : t.run = .running)
    (ha : storeAddress i s = some a) (hv : storeValue i s = some v) : t.mem = s.mem.write a v := by
  cases i with
  | st b1 b2 =>
    rcases execSt_cases h with ⟨ra, rb, hra, hrb, rfl⟩ | ⟨-, rfl⟩
    · simp only [storeAddress, storeValue, hra, hrb, Option.map_some, Option.some.injEq] at ha hv
      rw [← ha, ← hv, advance_mem]
    · exact absurd hrun (faultedWith_not_running _)
  | push b =>
    rcases execPush_cases h with ⟨r, hr, ⟨-, rfl⟩ | ⟨-, rfl⟩⟩ | ⟨-, rfl⟩
    · exact absurd hrun (faultedWith_not_running _)
    · simp only [storeAddress, storeValue, hr, Option.map_some, Option.some.injEq, sp_decSp] at ha hv
      rw [← ha, ← hv, advance_mem]
    · exact absurd hrun (faultedWith_not_running _)
  | call b =>
    rcases execCall_cases h with ⟨r, -, ⟨-, ⟨-, rfl⟩ | ⟨-, rfl⟩⟩ | ⟨-, rfl⟩⟩ | ⟨-, rfl⟩
    · exact absurd hrun (faultedWith_not_running _)
    · simp only [storeAddress, storeValue, Option.some.injEq, sp_decSp] at ha hv
      rw [← ha, ← hv, jumpTo_mem]
    · exact absurd hrun (faultedWith_not_running _)
    · exact absurd hrun (faultedWith_not_running _)
  | _ => cases ha

/-- The stored byte is what the next state holds at the store's address. -/
theorem byteAt_of_store {a : Nat} {v : Byte} (hwf : s.mem.wf = true) (h : exec i s = .next t) (hrun : t.run = .running)
    (ha : storeAddress i s = some a) (hv : storeValue i s = some v) : t.byteAt a = some v := by
  rw [byteAt_of_lt (storeAddress_lt ha), exec_mem_of_store h hrun ha hv, read_write_same hwf]

/-! ### What a fetch reads -/

/-- Byte `k` of the fetch window is the byte at `pc + k`, where that address exists (40_dispatch_cycle.md R71, R73). -/
theorem fetchWindow_getElem? {k : Nat} (hk : k < 3) : s.fetchWindow[k]? = s.byteAt (s.pc.toNat + k) := by
  have position : s.pc.toNat + 2 < Config.memSize ∨ s.pc.toNat = 254 ∨ s.pc.toNat = 255 ∨ Config.memSize ≤ s.pc.toNat := by
    simp only [Config.memSize]; omega
  rcases position with h | h | h | h
  · rw [fetchWindow_three h, byteAt_of_lt (by omega)]
    interval_cases k <;> rfl
  · rw [fetchWindow_two h, h]
    interval_cases k <;> rfl
  · rw [fetchWindow_one h, h]
    interval_cases k <;> rfl
  · rw [fetchWindow_of_ge h, byteAt_of_ge (Nat.le_add_right_of_le h), List.getElem?_nil]

/-- No instruction writes the instruction register (10_state.md R21). -/
theorem exec_ir (h : exec i s = .next t) : t.ir = s.ir := by
  cases exec_outcome h with
  | completes _ _ _ latched => exact latched
  | badIndex _ result | zeroDivisor _ _ _ _ _ _ _ _ result | emptyStack _ _ result | fullStack _ _ result
  | callAtTop _ _ _ _ _ result | halts _ result => subst result; rfl

/-- A step latches the opcode byte at `pc` (40_dispatch_cycle.md R71). -/
theorem step_ir {b : Byte} (h : step s = .next t) (hb : s.byteAt s.pc.toNat = some b) : t.ir = b := by
  have latched : s.latchIr.ir = b := by simp [State.latchIr, hb]
  obtain ⟨-, ⟨e, -, rfl⟩ | ⟨i, rest, -, h⟩⟩ := step_cases h
  · exact latched
  · rw [exec_ir h, latched]

/-- Settles O47, from the memory after a store and from a fetch reading only the memory. -/
theorem storeSeenByNextFetch : Obligations.StoreSeenByNextFetch := by
  intro s t i rest a v hwf hd ha hv h hrun
  obtain ⟨hpc, hop⟩ := decode_fetchWindow_ok hd
  obtain ⟨hs, -⟩ := step_cases h
  have hstep : step s = exec i s.latchIr := step_ok hs hd
  have stored : t.byteAt a = some v :=
    byteAt_of_store (by rwa [latchIr_mem]) (hstep ▸ h) hrun (by rwa [storeAddress_latchIr]) (by rwa [storeValue_latchIr])
  refine ⟨?_, ?_, ?_⟩
  · rw [hstep, latchIr_of_lt hpc, hop]
  · intro w same k hk hka
    rw [fetchWindow_getElem? hk, hka, same, stored]
  · intro u hta hu
    exact step_ir hu (hta ▸ stored)

end Sys2Proof.Machine

/-! ### The length of a decoded instruction (30_encoding.md R50, R51)

What each way of taking operand bytes answers fixes how many it took; INT alone may find none (R60). -/

namespace Sys2Proof

variable {bytes rest : List Byte} {i : Instr}

theorem takeOne_eq_ok {mk : Byte → Instr} : takeOne mk bytes = .ok (i, rest) ↔ ∃ b, bytes = b :: rest ∧ i = mk b := by
  cases bytes with
  | nil => simp
  | cons b bs => simp [eq_comm, and_comm]

theorem takeTwo_eq_ok {mk : Byte → Byte → Instr} :
    takeTwo mk bytes = .ok (i, rest) ↔ ∃ b c, bytes = b :: c :: rest ∧ i = mk b c := by
  rcases bytes with _ | ⟨b, _ | ⟨c, bs⟩⟩
  · simp
  · simp
  · simp [eq_comm, and_comm]

theorem takeInt_eq_ok :
    takeInt bytes = .ok (i, rest) ↔
      (∃ b, bytes = b :: rest ∧ i = .int (some b)) ∨ (bytes = [] ∧ rest = [] ∧ i = .int none) := by
  cases bytes with
  | nil => simp [eq_comm, and_comm]
  | cons b bs => simp [eq_comm, and_comm]

/-- The bytes taken and the opcode byte are as many as the format has, except for an INT without operand byte. -/
theorem takeOperands_length {m : Mnemonic} (h : takeOperands m bytes = .ok (i, rest)) :
    rest.length + m.format.length = bytes.length + 1 ∨ (i = .int none ∧ bytes = []) := by
  cases m with
  | NOP | HLT | RET | IRET => cases h; exact .inl rfl
  | INT =>
    rcases takeInt_eq_ok.1 h with ⟨b, rfl, -⟩ | ⟨hbytes, -, hi⟩
    · exact .inl rfl
    · exact .inr ⟨hi, hbytes⟩
  | PUSH | POP | PRN | PRA | CALL | JMP | JEQ | JNE | JGT | JLT | JLE | JGE | INC | DEC | NOT =>
    obtain ⟨b, rfl, -⟩ := takeOne_eq_ok.1 h
    exact .inl rfl
  | LDI | LD | ST | ADD | SUB | MUL | DIV | MOD | CMP | AND | OR | XOR | SHL | SHR =>
    obtain ⟨b, c, rfl, -⟩ := takeTwo_eq_ok.1 h
    exact .inl rfl

/-- Settles O4: an injective map finds the opcode's own mnemonic, and that mnemonic's format says how many bytes are taken. -/
theorem lengthKnownFromOpcode : Obligations.LengthKnownFromOpcode := by
  intro map hinj m bytes rest i h
  rw [decodeWith_cons_some (dispatchTable_complete hinj m)] at h
  exact ⟨takeOperands_mnemonic h, takeOperands_length h⟩

end Sys2Proof

/-! ### Illegal register bytes (30_encoding.md R52)

Every meaning with a register operand begins with `withReg` or `withRegs`, which raise before anything else happens. -/

namespace Sys2Proof.Machine

variable {s : State} {i : Instr}

theorem regIndex_eq_none_iff_isReg {b : Byte} : regIndex b = none ↔ b.isReg = false := by
  rw [← regIndex_isSome, Option.isSome_eq_false_iff, Option.isNone_iff_eq_none]

theorem withReg_of_not_isReg {b : Byte} (h : (!b.isReg) = true) (next : RegIdx → Result) :
    withReg b s next = .next (s.faultedWith .outOfRangeAddress) :=
  withReg_none (regIndex_eq_none_iff_isReg.2 (by simpa using h)) next

theorem withRegs_of_not_isReg {b1 b2 : Byte} (h : (!(b1.isReg && b2.isReg)) = true) (next : RegIdx → RegIdx → Result) :
    withRegs b1 b2 s next = .next (s.faultedWith .outOfRangeAddress) := by
  refine withRegs_none ?_ next
  rw [regIndex_eq_none_iff_isReg, regIndex_eq_none_iff_isReg]
  simpa only [Bool.not_eq_true', Bool.and_eq_false_iff] using h

/-- An instruction with an illegal register byte raises `OutOfRangeAddress` (40_dispatch_cycle.md R74). -/
theorem exec_of_hasBadIndex (bad : hasBadIndex i = true) : exec i s = .next (s.faultedWith .outOfRangeAddress) := by
  cases i with
  | nop | hlt | ret | iret | int r => cases bad
  | push r | pop r | prn r | pra r | call r | jmp r | jeq r | jne r | jgt r | jlt r | jle r | jge r | inc r | dec r | not r
  | ldi r imm => exact withReg_of_not_isReg bad _
  | ld a b | st a b | add a b | sub a b | mul a b | div a b | mod a b | cmp a b | and a b | or a b | xor a b | shl a b
  | shr a b => exact withRegs_of_not_isReg bad _

/-- Settles O14, from what a byte names and from the register checks coming first in every meaning. -/
theorem badRegisterByteRaisesOutOfRange : Obligations.BadRegisterByteRaisesOutOfRange :=
  ⟨fun _ _ => regIndex_eq_some, fun _ _ bad => exec_of_hasBadIndex bad⟩

end Sys2Proof.Machine

/-! ### Every instruction answers a next state (40_dispatch_cycle.md R70, 70_reset_and_hazards.md R188)

An operation that checks something raises where the check fails, and a raised fault is a next state; so it answers one as
soon as what follows the check does. -/

namespace Sys2Proof.Machine

variable {s : State}

/-- The result is a next state: neither a host fault nor a refusal. -/
def AnswersNext (r : Result) : Prop := ∃ t, r = .next t

theorem answersNext_next (t : State) : AnswersNext (.next t) := ⟨t, rfl⟩

theorem withReg_answersNext {b : Byte} {next : RegIdx → Result} (hn : ∀ r, AnswersNext (next r)) :
    AnswersNext (withReg b s next) := by
  cases hb : regIndex b with
  | some r => rw [withReg_some hb]; exact hn r
  | none => rw [withReg_none hb]; exact answersNext_next _

theorem withRegs_answersNext {b1 b2 : Byte} {next : RegIdx → RegIdx → Result} (hn : ∀ a b, AnswersNext (next a b)) :
    AnswersNext (withRegs b1 b2 s next) :=
  withReg_answersNext fun a => withReg_answersNext (hn a)

theorem withMemRead_answersNext {b : Byte} {next : Byte → Result} (hn : ∀ v, AnswersNext (next v)) :
    AnswersNext (withMemRead s b.toNat next) := by
  rw [withMemRead_byte]; exact hn _

theorem withMemWrite_answersNext {b v : Byte} {next : State → Result} (hn : ∀ u, AnswersNext (next u)) :
    AnswersNext (withMemWrite s b.toNat v next) := by
  rw [withMemWrite_byte]; exact hn _

theorem withPush_answersNext {value : State → Byte} {next : State → Result} (hn : ∀ u, AnswersNext (next u)) :
    AnswersNext (withPush value s next) := by
  rw [withPush_eq]
  split
  · exact answersNext_next _
  · exact hn _

theorem withPopped_answersNext {next : Byte → Result} (hn : ∀ v, AnswersNext (next v)) :
    AnswersNext (withPopped s next) := by
  rw [withPopped_eq]
  split
  · exact answersNext_next _
  · exact hn _

theorem aluDivide_answersNext (f : Byte → Byte → Byte) (b1 b2 : Byte) : AnswersNext (aluDivide f b1 b2 s) :=
  withRegs_answersNext fun _ _ => by
    split <;> exact answersNext_next _

theorem execCall_answersNext (b : Byte) : AnswersNext (execCall b s) :=
  withReg_answersNext fun _ => by
    split
    · exact withPush_answersNext fun _ => answersNext_next _
    · exact answersNext_next _

theorem exec_answersNext (i : Instr) (s : State) : AnswersNext (exec i s) := by
  cases i with
  | nop | hlt | iret | int r => exact answersNext_next _
  | ret => exact withPopped_answersNext fun _ => answersNext_next _
  | push r => exact withReg_answersNext fun _ => withPush_answersNext fun _ => answersNext_next _
  | pop r => exact withReg_answersNext fun _ => withPopped_answersNext fun _ => answersNext_next _
  | call r => exact execCall_answersNext r
  | prn r | pra r | jmp r | jeq r | jne r | jgt r | jlt r | jle r | jge r | inc r | dec r | not r | ldi r imm =>
    exact withReg_answersNext fun _ => answersNext_next _
  | ld a b => exact withRegs_answersNext fun _ _ => withMemRead_answersNext fun _ => answersNext_next _
  | st a b => exact withRegs_answersNext fun _ _ => withMemWrite_answersNext fun _ => answersNext_next _
  | add a b | sub a b | mul a b | cmp a b | and a b | or a b | xor a b | shl a b | shr a b =>
    exact withRegs_answersNext fun _ _ => answersNext_next _
  | div a b | mod a b => exact aluDivide_answersNext _ a b

/-- Settles O10, from every shared operation answering a next state as soon as what follows it does. -/
theorem execAlwaysAnswersNext : Obligations.ExecAlwaysAnswersNext := exec_answersNext

end Sys2Proof.Machine

/-! ### The program counter after an instruction (10_state.md R14 to R16)

A handler that runs to its end either advances over its own bytes or goes to a byte it read; `pc` goes above 255 in the
first way only. -/

namespace Sys2Proof.Machine

variable {s t : State} {i : Instr}

/-- The instructions that can write `pc` from a byte (44_control_flow.md). -/
abbrev controlTransfers : List Mnemonic := [.CALL, .RET, .JMP, .JEQ, .JNE, .JGT, .JGE, .JLT, .JLE]

/-- Where an instruction `i` executed in `s` can leave `pc` in `t`: where it was, with the machine stopped; advanced by the
length of `i`; or at a byte, if `i` transfers control. -/
inductive PcOutcome (i : Instr) (s t : State) : Prop
  | stays (kept : t.pc = s.pc) (stopped : t.run ≠ .running)
  | advances (sequential : t.pc = s.pc + BitVec.ofNat 9 i.length) (running : t.run = s.run)
  | jumps (target : Byte) (arrived : t.pc = target.toWord9) (running : t.run = s.run)
      (which : i.mnemonic ∈ controlTransfers)

theorem toWord9_toNat_le (b : Byte) : b.toWord9.toNat ≤ 255 := by
  simp only [Byte.toWord9, BitVec.toNat_setWidth]; omega

theorem pcOutcome_faultedWith (k : FaultKind) : PcOutcome i s (s.faultedWith k) :=
  .stays rfl (faultedWith_not_running k)

theorem pcOutcome_withReg {b : Byte} {next : RegIdx → Result} (hn : ∀ r, next r = .next t → PcOutcome i s t)
    (h : withReg b s next = .next t) : PcOutcome i s t := by
  rcases withReg_cases h with ⟨r, -, h⟩ | ⟨-, rfl⟩
  · exact hn r h
  · exact pcOutcome_faultedWith _

theorem pcOutcome_withPopped {next : Byte → Result} (hn : ∀ v, next v = .next t → PcOutcome i s t)
    (h : withPopped s next = .next t) : PcOutcome i s t := by
  rcases withPopped_cases h with ⟨-, rfl⟩ | ⟨-, h⟩
  · exact pcOutcome_faultedWith _
  · exact hn _ h

theorem pcOutcome_alu1 {g : Byte → Byte} {b : Byte} (hi : i.length = 2) (h : alu1 g b s = .next t) : PcOutcome i s t := by
  rcases alu1_cases h with ⟨r, -, rfl⟩ | ⟨-, rfl⟩
  · exact .advances (by rw [hi]; rfl) rfl
  · exact pcOutcome_faultedWith _

theorem pcOutcome_alu2 {f : Byte → Byte → Byte} {b1 b2 : Byte} (hi : i.length = 3) (h : alu2 f b1 b2 s = .next t) :
    PcOutcome i s t := by
  rcases alu2_cases h with ⟨a, b, -, -, rfl⟩ | ⟨-, rfl⟩
  · exact .advances (by rw [hi]; rfl) rfl
  · exact pcOutcome_faultedWith _

theorem pcOutcome_aluDivide {f : Byte → Byte → Byte} {b1 b2 : Byte} (hi : i.length = 3)
    (h : aluDivide f b1 b2 s = .next t) : PcOutcome i s t := by
  rcases aluDivide_cases h with ⟨a, b, -, -, ⟨-, rfl⟩ | ⟨-, rfl⟩⟩ | ⟨-, rfl⟩
  · exact pcOutcome_faultedWith _
  · exact .advances (by rw [hi]; rfl) rfl
  · exact pcOutcome_faultedWith _

theorem pcOutcome_jumpIf {c : Cond} {b : Byte} (hi : i.length = 2) (hm : i.mnemonic ∈ controlTransfers)
    (h : jumpIf c b s = .next t) : PcOutcome i s t := by
  rcases jumpIf_cases h with ⟨r, -, ⟨-, rfl⟩ | ⟨-, rfl⟩⟩ | ⟨-, rfl⟩
  · exact .jumps _ rfl rfl hm
  · exact .advances (by rw [hi]; rfl) rfl
  · exact pcOutcome_faultedWith _

/-- Where every instruction can leave `pc`. -/
theorem exec_pcOutcome (h : exec i s = .next t) : PcOutcome i s t := by
  cases i with
  | nop | iret | int r => cases h; exact .advances rfl rfl
  | hlt => cases h; exact .stays rfl nofun
  | ret => exact pcOutcome_withPopped (fun v h => by cases h; exact .jumps v rfl rfl (by simp [Instr.mnemonic])) h
  | pop r =>
    exact pcOutcome_withReg (fun _ => pcOutcome_withPopped fun _ h => by cases h; exact .advances rfl rfl) h
  | push r =>
    rcases execPush_cases h with ⟨_, -, ⟨-, rfl⟩ | ⟨-, rfl⟩⟩ | ⟨-, rfl⟩
    · exact .stays rfl nofun
    · exact .advances rfl rfl
    · exact pcOutcome_faultedWith _
  | call r =>
    rcases execCall_cases h with ⟨_, -, ⟨-, ⟨-, rfl⟩ | ⟨-, rfl⟩⟩ | ⟨-, rfl⟩⟩ | ⟨-, rfl⟩
    · exact .stays rfl nofun
    · exact .jumps _ rfl rfl (by simp [Instr.mnemonic])
    · exact pcOutcome_faultedWith _
    · exact pcOutcome_faultedWith _
  | prn r | pra r | ldi r imm => exact pcOutcome_withReg (fun _ h => by cases h; exact .advances rfl rfl) h
  | jmp r => exact pcOutcome_withReg (fun _ h => by cases h; exact .jumps _ rfl rfl (by simp [Instr.mnemonic])) h
  | jeq r | jne r | jgt r | jlt r | jle r | jge r => exact pcOutcome_jumpIf rfl (by simp [Instr.mnemonic]) h
  | inc r | dec r | not r => exact pcOutcome_alu1 rfl h
  | ld a b =>
    rcases withRegs_cases h with ⟨_, _, -, -, h⟩ | ⟨-, rfl⟩
    · rw [withMemRead_byte] at h; cases h; exact .advances rfl rfl
    · exact pcOutcome_faultedWith _
  | st a b =>
    rcases execSt_cases h with ⟨_, _, -, -, rfl⟩ | ⟨-, rfl⟩
    · exact .advances rfl rfl
    · exact pcOutcome_faultedWith _
  | cmp a b =>
    rcases execCmp_cases h with ⟨_, _, -, -, rfl⟩ | ⟨-, rfl⟩
    · exact .advances rfl rfl
    · exact pcOutcome_faultedWith _
  | add a b | sub a b | mul a b | and a b | or a b | xor a b | shl a b | shr a b => exact pcOutcome_alu2 rfl h
  | div a b | mod a b => exact pcOutcome_aluDivide rfl h

/-- From at most 255, an instruction brings `pc` above 255 only by advancing over itself. -/
theorem exec_pc_above (hs : s.pc.toNat ≤ 255) (h : exec i s = .next t) (ht : 255 < t.pc.toNat) :
    t.pc = s.pc + BitVec.ofNat 9 i.length := by
  cases exec_pcOutcome h with
  | stays kept _ => rw [kept] at ht; exact absurd hs (Nat.not_le.2 ht)
  | advances sequential _ => exact sequential
  | jumps target arrived _ _ => rw [arrived] at ht; exact absurd (toWord9_toNat_le target) (Nat.not_le.2 ht)

/-! ### Fetch (40_dispatch_cycle.md R71) -/

/-- A fetch above 255 raises `OutOfRangeAddress`, and the instruction register keeps its value. -/
theorem step_of_pc_above (hs : s.run = .running) (hpc : Config.memSize ≤ s.pc.toNat) :
    step s = .next (s.faultedWith .outOfRangeAddress) := by
  have nothing_there : decode s.fetchWindow = .error .noOpcode := by rw [fetchWindow_of_ge hpc]; rfl
  rw [step_error hs nothing_there, latchIr_of_ge hpc]
  rfl

/-- From at most 255, a step brings `pc` above 255 only by advancing over the instruction it decoded. -/
theorem step_pc_above (hpc : s.pc.toNat ≤ 255) (h : step s = .next t) (ht : 255 < t.pc.toNat) :
    ∃ i rest, decode s.fetchWindow = .ok (i, rest) ∧ t.pc = s.pc + BitVec.ofNat 9 i.length := by
  obtain ⟨-, ⟨e, -, rfl⟩ | ⟨i, rest, hd, h⟩⟩ := step_cases h
  · rw [faultedWith_pc, latchIr_pc] at ht
    exact absurd hpc (Nat.not_le.2 ht)
  · refine ⟨i, rest, hd, ?_⟩
    have advanced := exec_pc_above (by rwa [latchIr_pc]) h ht
    rwa [latchIr_pc] at advanced

/-- Settles O11, from what a step latches and from where an instruction can leave `pc`. -/
theorem fetchLatchesIrOrRaises : Obligations.FetchLatchesIrOrRaises := by
  intro s hs
  refine ⟨fun hpc => step_of_pc_above hs hpc, fun hpc t h => ⟨?_, step_pc_above hpc h⟩⟩
  exact step_ir h (byteAt_of_lt (Nat.lt_succ_of_le hpc))

end Sys2Proof.Machine

/-! ### Unassigned opcodes (40_dispatch_cycle.md R72)

Decoding answers `unrecognizedOpcode` for bytes that begin with no mnemonic's opcode and for no others, and no instruction
raises that fault. -/

namespace Sys2Proof

variable {m : Mnemonic} {bytes : List Byte} {op b : Byte} {e : DecodeError}

theorem takeOne_eq_error {mk : Byte → Instr} (h : takeOne mk bytes = .error e) : e = .missingOperand := by
  cases bytes with
  | nil => cases h; rfl
  | cons _ _ => cases h

theorem takeTwo_eq_error {mk : Byte → Byte → Instr} (h : takeTwo mk bytes = .error e) : e = .missingOperand := by
  rcases bytes with _ | ⟨_, _ | ⟨_, _⟩⟩
  · cases h; rfl
  · cases h; rfl
  · cases h

theorem takeInt_ne_error : takeInt bytes ≠ .error e := by
  cases bytes with
  | nil => exact nofun
  | cons _ _ => exact nofun

/-- All that can fail once the opcode is known is that an operand byte is not there (40_dispatch_cycle.md R73). -/
theorem takeOperands_eq_error (h : takeOperands m bytes = .error e) : e = .missingOperand := by
  cases m with
  | NOP | HLT | RET | IRET => cases h
  | INT => exact absurd h takeInt_ne_error
  | PUSH | POP | PRN | PRA | CALL | JMP | JEQ | JNE | JGT | JLT | JLE | JGE | INC | DEC | NOT => exact takeOne_eq_error h
  | LDI | LD | ST | ADD | SUB | MUL | DIV | MOD | CMP | AND | OR | XOR | SHL | SHR => exact takeTwo_eq_error h

theorem decode_eq_unrecognizedOpcode :
    decode (op :: bytes) = .error (.unrecognizedOpcode b) ↔ (∀ m, opcodeMap m ≠ op) ∧ op = b := by
  cases hm : dispatchTable opcodeMap op with
  | none =>
    rw [decode, decodeWith_cons_none hm]
    simp [dispatchTable_none.1 hm]
  | some m =>
    rw [decode, decodeWith_cons_some hm]
    constructor
    · intro h; cases takeOperands_eq_error h
    · rintro ⟨unassigned, -⟩; exact absurd (dispatchTable_sound hm) (unassigned m)

end Sys2Proof

namespace Sys2Proof.Machine

variable {s t : State} {i : Instr} {snap : Snapshot}

theorem decode_fetchWindow_unrecognizedOpcode {b : Byte} :
    decode s.fetchWindow = .error (.unrecognizedOpcode b) ↔
      s.pc.toNat < Config.memSize ∧ (∀ m, opcodeMap m ≠ s.mem.read s.pc.toNat) ∧ s.mem.read s.pc.toNat = b := by
  by_cases hpc : s.pc.toNat < Config.memSize
  · obtain ⟨bytes, hw, -⟩ := fetchWindow_cons hpc
    rw [hw, decode_eq_unrecognizedOpcode]
    exact (and_iff_right hpc).symm
  · rw [fetchWindow_of_ge (Nat.not_lt.1 hpc)]
    exact ⟨nofun, fun h => absurd h.1 hpc⟩

theorem faultOfDecodeError_eq_unrecognizedOpcode {e : DecodeError} (h : faultOfDecodeError e = .unrecognizedOpcode) :
    ∃ b, e = .unrecognizedOpcode b := by
  cases e with
  | unrecognizedOpcode b => exact ⟨b, rfl⟩
  | noOpcode | missingOperand => cases h

/-- No handler raises `UnrecognizedOpcode`. -/
theorem exec_ne_unrecognizedOpcode (hs : s.run = .running) (h : exec i s = .next t) :
    t.run ≠ .faulted .unrecognizedOpcode snap := by
  cases exec_outcome h with
  | completes _ running _ _ => rw [running, hs]; exact nofun
  | badIndex _ result | zeroDivisor _ _ _ _ _ _ _ _ result | emptyStack _ _ result | fullStack _ _ result
  | callAtTop _ _ _ _ _ result | halts _ result => subst result; exact nofun

/-- A step that raises `UnrecognizedOpcode` fetched a byte that is no opcode, and raised it right there. -/
theorem step_unrecognizedOpcode (h : step s = .next t) (ht : t.run = .faulted .unrecognizedOpcode snap) :
    s.pc.toNat < Config.memSize ∧ (∀ m, opcodeMap m ≠ s.mem.read s.pc.toNat) ∧
      t = s.latchIr.faultedWith .unrecognizedOpcode := by
  obtain ⟨hs, ⟨e, hd, rfl⟩ | ⟨i, rest, -, h⟩⟩ := step_cases h
  · have kind : faultOfDecodeError e = .unrecognizedOpcode := by injection ht
    obtain ⟨b, rfl⟩ := faultOfDecodeError_eq_unrecognizedOpcode kind
    obtain ⟨hpc, unassigned, -⟩ := decode_fetchWindow_unrecognizedOpcode.1 hd
    exact ⟨hpc, unassigned, rfl⟩
  · exact absurd ht (exec_ne_unrecognizedOpcode (by rwa [latchIr_run]) h)

theorem step_of_unassigned (hs : s.run = .running) (hpc : s.pc.toNat < Config.memSize)
    (unassigned : ∀ m, opcodeMap m ≠ s.mem.read s.pc.toNat) :
    step s = .next (s.latchIr.faultedWith .unrecognizedOpcode) :=
  step_error hs (decode_fetchWindow_unrecognizedOpcode.2 ⟨hpc, unassigned, rfl⟩)

/-- What `UnrecognizedOpcode` leaves and exposes: `ir` and `run` aside, the state before the fetch (60_exceptions.md R152,
R157). -/
theorem unrecognizedOpcode_frame (hpc : s.pc.toNat < Config.memSize)
    (hsnap : (s.latchIr.faultedWith .unrecognizedOpcode).run = .faulted .unrecognizedOpcode snap) :
    s.latchIr.faultedWith .unrecognizedOpcode =
        { s with ir := s.mem.read s.pc.toNat, run := .faulted .unrecognizedOpcode snap } ∧
      snap.pc = s.pc ∧ snap.bytes[0] = some (s.mem.read s.pc.toNat) ∧ snap.regs = s.regs := by
  obtain rfl : s.latchIr.snapshot = snap := by injection hsnap
  rw [latchIr_of_lt hpc]
  exact ⟨rfl, rfl, snapshot_byte_at_pc s hpc, rfl⟩

/-- A step at the opcode of `m` that finds its operands runs an instruction of mnemonic `m` (40_dispatch_cycle.md R75). -/
theorem step_of_opcode {m : Mnemonic} {rest : List Byte} (hs : s.run = .running)
    (hm : s.mem.read s.pc.toNat = opcodeMap m) (hd : decode s.fetchWindow = .ok (i, rest)) :
    i.mnemonic = m ∧ step s = exec i { s with ir := opcodeMap m } := by
  obtain ⟨hpc, hop⟩ := decode_fetchWindow_ok hd
  exact ⟨opcodeMap_injective (hop.symm.trans hm), by rw [step_ok hs hd, latchIr_of_lt hpc, hm]⟩

/-- Settles O12, from when decoding answers `unrecognizedOpcode` and from no handler raising that fault. -/
theorem unrecognizedOpcodeExactlyWhenUnassigned : Obligations.UnrecognizedOpcodeExactlyWhenUnassigned := by
  intro s hs
  refine ⟨⟨?_, ?_⟩, ?_, fun m i rest _ hm hd => step_of_opcode hs hm hd⟩
  · rintro ⟨t, snap, h, ht⟩
    obtain ⟨hpc, unassigned, -⟩ := step_unrecognizedOpcode h ht
    exact ⟨Nat.le_of_lt_succ hpc, unassigned⟩
  · rintro ⟨hpc, unassigned⟩
    exact ⟨_, _, step_of_unassigned hs (Nat.lt_succ_of_le hpc) unassigned, rfl⟩
  · intro t snap h ht
    obtain ⟨hpc, -, rfl⟩ := step_unrecognizedOpcode h ht
    exact unrecognizedOpcode_frame hpc ht

end Sys2Proof.Machine

/-! ### Runs (40_dispatch_cycle.md R78)

A state without a next state is left as it is by every budget, so budgets add up, and a run that has ended stays at its
end. -/

namespace Sys2Proof.Machine

variable {s s' t t' : State}

theorem runFuel_of_no_next (h : ∀ t, step s ≠ .next t) (n : Nat) : runFuel n s = s := by
  cases n with
  | zero => rfl
  | succ n =>
    rw [runFuel]
    cases hstep : step s with
    | next t => exact absurd hstep (h t)
    | fault r => rfl
    | refused r => rfl

theorem step_ne_next_of_not_running (hs : s.run ≠ .running) (t : State) : step s ≠ .next t :=
  fun h => hs (step_cases h).1

theorem runFuel_of_not_running (hs : s.run ≠ .running) (n : Nat) : runFuel n s = s :=
  runFuel_of_no_next (step_ne_next_of_not_running hs) n

/-- Budgets add up. -/
theorem runFuel_add (m n : Nat) (s : State) : runFuel (m + n) s = runFuel n (runFuel m s) := by
  induction m generalizing s with
  | zero => rw [Nat.zero_add, runFuel_zero]
  | succ m ih =>
    by_cases hstep : ∃ t, step s = .next t
    · obtain ⟨t, hstep⟩ := hstep
      rw [Nat.succ_add, runFuel_succ_next hstep, runFuel_succ_next hstep, ih]
    · have no_next : ∀ t, step s ≠ .next t := not_exists.1 hstep
      rw [runFuel_of_no_next no_next (m + 1), runFuel_of_no_next no_next, runFuel_of_no_next no_next]

/-- A run that has ended under some budget is at the same end under every larger one. -/
theorem runFuel_of_ended {m n : Nat} (hend : (runFuel n s).run ≠ .running) (hle : n ≤ m) : runFuel m s = runFuel n s := by
  obtain ⟨k, rfl⟩ := Nat.exists_eq_add_of_le hle
  rw [runFuel_add, runFuel_of_not_running hend]

theorem runsTo_runFuel {n : Nat} (hend : (runFuel n s).run ≠ .running) : s.runsTo (runFuel n s) := ⟨hend, n, rfl⟩

theorem runsTo_iff_of_not_running (hs : s.run ≠ .running) : s.runsTo t ↔ t = s := by
  constructor
  · rintro ⟨-, n, rfl⟩; exact runFuel_of_not_running hs n
  · rintro rfl; exact ⟨hs, 0, rfl⟩

theorem runsTo_iff_of_step (h : step s = .next s') : s.runsTo t ↔ s'.runsTo t := by
  constructor
  · rintro ⟨hend, n, rfl⟩
    cases n with
    | zero => exact absurd (step_cases h).1 hend
    | succ n => rw [runFuel_succ_next h] at hend ⊢; exact runsTo_runFuel hend
  · rintro ⟨hend, n, rfl⟩
    rw [← runFuel_succ_next h] at hend ⊢
    exact runsTo_runFuel hend

/-- A run has at most one end: the larger of the two budgets reaches both. -/
theorem runsTo_unique (h : s.runsTo t) (h' : s.runsTo t') : t = t' := by
  obtain ⟨ht, n, rfl⟩ := h
  obtain ⟨ht', n', rfl⟩ := h'
  rcases Nat.le_total n n' with hle | hle
  · exact (runFuel_of_ended ht hle).symm
  · exact runFuel_of_ended ht' hle

theorem diverges_iff : s.diverges ↔ ¬ ∃ t, s.runsTo t := by
  constructor
  · rintro hdiv ⟨_, hend, n, rfl⟩
    exact hend (hdiv n)
  · intro no_end n
    by_contra hend
    exact no_end ⟨_, runsTo_runFuel hend⟩

/-- Settles O53, from budgets adding up and from a state that is not running having no next state. -/
theorem runIsTheIterationOfStep : Obligations.RunIsTheIterationOfStep := by
  refine ⟨fun _ _ => runsTo_iff_of_not_running, fun _ _ _ => runsTo_iff_of_step, fun _ _ _ => runsTo_unique,
    fun _ => diverges_iff, ?_⟩
  rintro s _ n rfl hend
  exact ⟨runsTo_runFuel hend, fun _ => runFuel_of_ended hend⟩

end Sys2Proof.Machine

/-! ### The conditional jumps (44_control_flow.md R143)

One equation says what `Jcc r` does with a legal register byte; each cell of the table is its value at one flag state. What
lies before the handler is shared with other instructions: the register check, `exec_of_hasBadIndex`, and the fetch of the
operand byte, `step_at_255_of_operand`. -/

namespace Sys2Proof

/-- A format other than Z takes operand bytes, and INT alone does without the one it has (40_dispatch_cycle.md R73). -/
theorem takeOperands_nil {m : Mnemonic} (hformat : m.format ≠ .Z) (hint : m ≠ .INT) :
    takeOperands m [] = .error .missingOperand := by
  cases m with
  | NOP | HLT | RET | IRET => exact absurd rfl hformat
  | INT => exact absurd rfl hint
  | PUSH | POP | PRN | PRA | CALL | JMP | JEQ | JNE | JGT | JLT | JLE | JGE | INC | DEC | NOT
  | LDI | LD | ST | ADD | SUB | MUL | DIV | MOD | CMP | AND | OR | XOR | SHL | SHR => rfl

end Sys2Proof

namespace Sys2Proof.Machine

variable {s : State} {b : Byte} {r : RegIdx} {m : Mnemonic}

/-- `Jcc r` with a legal register byte: JMP where the table has the flags as taken, and two bytes on where it has not. -/
theorem jumpIf_eq (c : Cond) (hr : regIndex b = some r) :
    jumpIf c b s = if c.taken s.fl then exec (.jmp b) s else .next { s with pc := s.pc + 2 } := by
  have jmp : exec (.jmp b) s = .next (s.jumpTo (s.reg r)) := withReg_some hr _
  rw [jumpIf, withReg_some hr, jmp]
  exact apply_ite Host.Outcome.next _ _ _

/-- An opcode at 255 has no room for an operand byte: the fetch of one raises `OutOfRangeAddress` (40_dispatch_cycle.md
R73). -/
theorem step_at_255_of_operand (hs : s.run = .running) (hpc : s.pc = 255) (hop : s.mem.read 255 = opcodeMap m)
    (hformat : m.format ≠ .Z) (hint : m ≠ .INT) : step s = .next (s.latchIr.faultedWith .outOfRangeAddress) := by
  have undecodable : decode s.fetchWindow = .error .missingOperand := by
    rw [fetchWindow_one (by rw [hpc]; rfl), hop, decode_opcode, takeOperands_nil hformat hint]
  exact step_error hs undecodable

theorem conditionalJump_takes_operand (hm : m ∈ conditionalJumps) : m.format ≠ .Z ∧ m ≠ .INT := by
  revert m; decide

/-- Settles O33: the table from `jumpIf_eq`, flag state by flag state, and the two faults from what comes before the handler. -/
theorem conditionalJumpsFollowTable : Obligations.ConditionalJumpsFollowTable := by
  refine ⟨?_, ?_, ?_⟩
  · intro s b r hr
    have jump (c : Cond) := jumpIf_eq (s := s) c hr
    refine ⟨(jump .eq).trans ?_, (jump .ne).trans ?_, (jump .gt).trans ?_, (jump .ge).trans ?_, (jump .lt).trans ?_,
      (jump .le).trans ?_, withReg_some hr _⟩
    all_goals cases s.fl <;> rfl
  · intro s b hr i hi
    have illegal : b.isReg = false := regIndex_eq_none_iff_isReg.1 hr
    have bad : ∀ i ∈ [Instr.jeq b, .jne b, .jgt b, .jge b, .jlt b, .jle b], hasBadIndex i = true := by
      simp [hasBadIndex, Instr.wf, illegal]
    exact exec_of_hasBadIndex (bad i hi)
  · intro s hs hpc m hm hop
    obtain ⟨hformat, hint⟩ := conditionalJump_takes_operand hm
    exact ⟨_, _, step_at_255_of_operand hs hpc hop hformat hint, rfl⟩

end Sys2Proof.Machine

/-! ### Causes of the machine's faults (60_exceptions.md R154 to R157)

Each fault kind of a handler has one cause in `ExecOutcome`; read backwards, a faulted state tells its cause and the state it
was raised in. -/

namespace Sys2Proof.Machine

variable {s t : State} {i : Instr} {k : FaultKind} {snap : Snapshot}

/-! ### StackOverflow -/

/-- Where a `StackOverflow` comes from, and the state it leaves (60_exceptions.md R154). -/
theorem exec_stackOverflow (hs : s.run = .running) (h : exec i s = .next t) (ht : t.run = .faulted .stackOverflow snap) :
    (s.sp - 1).toNat = s.rh.toNat ∧
      (∃ b r, regIndex b = some r ∧ (i = .push b ∨ (i = .call b ∧ s.pc.toNat + 2 < Config.memSize))) ∧
      t = s.decSp.faultedWith .stackOverflow := by
  cases exec_outcome h with
  | fullStack full which result => exact ⟨full, which, result⟩
  | completes _ running _ _ => rw [running, hs] at ht; cases ht
  | badIndex _ result | zeroDivisor _ _ _ _ _ _ _ _ result | emptyStack _ _ result | callAtTop _ _ _ _ _ result
  | halts _ result => subst result; cases ht

theorem withPush_of_full (full : (s.sp - 1).toNat = s.rh.toNat) (value : State → Byte) (next : State → Result) :
    withPush value s next = .next (s.decSp.faultedWith .stackOverflow) :=
  (withPush_eq value next).trans (if_pos full)

/-- PUSH and CALL on a full stack, with a legal register byte and a return address that fits. -/
theorem exec_of_fullStack {b : Byte} {r : RegIdx} (full : (s.sp - 1).toNat = s.rh.toNat) (hr : regIndex b = some r)
    (which : i = .push b ∨ (i = .call b ∧ s.pc.toNat + 2 < Config.memSize)) :
    exec i s = .next (s.decSp.faultedWith .stackOverflow) := by
  rcases which with rfl | ⟨rfl, fits⟩
  · exact (withReg_some hr _).trans (withPush_of_full full _ _)
  · exact (withReg_some hr _).trans ((if_pos fits).trans (withPush_of_full full _ _))

/-- Settles O42, from the one cause of the fault and from what a full stack makes PUSH and CALL do. -/
theorem stackOverflowExactlyAtHeapBoundary : Obligations.StackOverflowExactlyAtHeapBoundary := by
  intro i s t hs h
  refine ⟨⟨?_, ?_⟩, ?_⟩
  · rintro ⟨snap, ht⟩
    obtain ⟨full, ⟨b, r, hr, which⟩, -⟩ := exec_stackOverflow hs h ht
    exact ⟨full, b, r, hr, which.imp_right (And.imp_right Nat.le_of_lt_succ)⟩
  · rintro ⟨full, b, r, hr, which⟩
    rw [exec_of_fullStack full hr (which.imp_right (And.imp_right Nat.lt_succ_of_le))] at h
    cases h
    exact ⟨_, rfl⟩
  · intro snap ht
    obtain ⟨full, -, rfl⟩ := exec_stackOverflow hs h ht
    have decremented : (s.decSp.faultedWith .stackOverflow).sp = s.sp - 1 := sp_decSp s
    exact ⟨decremented, decremented ▸ full, rfl, rfl⟩

/-! ### ArithmeticFault -/

/-- Where an `ArithmeticFault` comes from, and the state it leaves (60_exceptions.md R155). -/
theorem exec_arithmeticFault (hs : s.run = .running) (h : exec i s = .next t)
    (ht : t.run = .faulted .arithmeticFault snap) :
    (∃ b1 b2 a b, regIndex b1 = some a ∧ regIndex b2 = some b ∧ s.reg b = 0 ∧ (i = .div b1 b2 ∨ i = .mod b1 b2)) ∧
      t = s.faultedWith .arithmeticFault := by
  cases exec_outcome h with
  | zeroDivisor b1 b2 a b legal1 legal2 zero which result => exact ⟨⟨b1, b2, a, b, legal1, legal2, zero, which⟩, result⟩
  | completes _ running _ _ => rw [running, hs] at ht; cases ht
  | badIndex _ result | emptyStack _ _ result | fullStack _ _ result | callAtTop _ _ _ _ _ result
  | halts _ result => subst result; cases ht

theorem aluDivide_of_zero {b1 b2 : Byte} {a b : RegIdx} (h1 : regIndex b1 = some a) (h2 : regIndex b2 = some b)
    (zero : s.reg b = 0) (f : Byte → Byte → Byte) : aluDivide f b1 b2 s = .next (s.faultedWith .arithmeticFault) :=
  (withRegs_some h1 h2 _).trans (if_pos zero)

/-- Settles O44, from the one cause of the fault and from what a zero divisor makes DIV and MOD do. -/
theorem arithmeticFaultExactlyOnZeroDivisor : Obligations.ArithmeticFaultExactlyOnZeroDivisor := by
  intro i s t hs h
  refine ⟨⟨?_, ?_⟩, ?_⟩
  · rintro ⟨snap, ht⟩
    exact (exec_arithmeticFault hs h ht).1
  · rintro ⟨b1, b2, a, b, h1, h2, zero, which⟩
    have raised : exec i s = .next (s.faultedWith .arithmeticFault) := by
      rcases which with rfl | rfl <;> exact aluDivide_of_zero h1 h2 zero _
    rw [raised] at h
    cases h
    exact ⟨_, rfl⟩
  · intro snap ht
    obtain ⟨-, rfl⟩ := exec_arithmeticFault hs h ht
    rfl

/-! ### StackUnderflow and the snapshot -/

/-- Where a `StackUnderflow` comes from, and the state it leaves (60_exceptions.md R156). -/
theorem exec_stackUnderflow (hs : s.run = .running) (h : exec i s = .next t)
    (ht : t.run = .faulted .stackUnderflow snap) :
    s.sp = spInit ∧ (i = .ret ∨ ∃ b r, regIndex b = some r ∧ i = .pop b) ∧ t = s.faultedWith .stackUnderflow := by
  cases exec_outcome h with
  | emptyStack empty which result => exact ⟨empty, which, result⟩
  | completes _ running _ _ => rw [running, hs] at ht; cases ht
  | badIndex _ result | zeroDivisor _ _ _ _ _ _ _ _ result | fullStack _ _ result | callAtTop _ _ _ _ _ result
  | halts _ result => subst result; cases ht

/-- The snapshot a raised fault records is that of the state it leaves (60_exceptions.md R157, R158). -/
theorem faultedWith_records_snapshot {k' : FaultKind} (ht : (s.faultedWith k').run = .faulted k snap) :
    snap = (s.faultedWith k').snapshot := by
  injection ht with _ hsnap
  exact hsnap.symm

theorem exec_snapshot (hs : s.run = .running) (h : exec i s = .next t) (ht : t.run = .faulted k snap) :
    snap = t.snapshot := by
  cases exec_outcome h with
  | completes _ running _ _ => rw [running, hs] at ht; cases ht
  | halts _ result => subst result; cases ht
  | badIndex _ result | zeroDivisor _ _ _ _ _ _ _ _ result | emptyStack _ _ result | fullStack _ _ result
  | callAtTop _ _ _ _ _ result => subst result; exact faultedWith_records_snapshot ht

end Sys2Proof.Machine

/-! ### Memory and heap boundary after an instruction (20_memory.md R38, 10_state.md R19)

An instruction leaves the memory as it was or makes the one store that `storeAddress` and `storeValue` announce. -/

namespace Sys2Proof.Machine

variable {s t : State} {i : Instr}

theorem mem_of_withReg {b : Byte} {next : RegIdx → Result} (hn : ∀ r, next r = .next t → t.mem = s.mem)
    (h : withReg b s next = .next t) : t.mem = s.mem := by
  rcases withReg_cases h with ⟨r, -, h⟩ | ⟨-, rfl⟩
  · exact hn r h
  · rfl

theorem mem_of_withRegs {b1 b2 : Byte} {next : RegIdx → RegIdx → Result}
    (hn : ∀ a b, next a b = .next t → t.mem = s.mem) (h : withRegs b1 b2 s next = .next t) : t.mem = s.mem :=
  mem_of_withReg (fun a => mem_of_withReg (hn a)) h

theorem mem_of_withPopped {next : Byte → Result} (hn : ∀ v, next v = .next t → t.mem = s.mem)
    (h : withPopped s next = .next t) : t.mem = s.mem := by
  rcases withPopped_cases h with ⟨-, rfl⟩ | ⟨-, h⟩
  · rfl
  · exact hn _ h

theorem mem_of_aluDivide {f : Byte → Byte → Byte} {b1 b2 : Byte} (h : aluDivide f b1 b2 s = .next t) : t.mem = s.mem := by
  rcases aluDivide_cases h with ⟨a, b, -, -, ⟨-, rfl⟩ | ⟨-, rfl⟩⟩ | ⟨-, rfl⟩ <;> rfl

theorem mem_of_jumpIf {c : Cond} {b : Byte} (h : jumpIf c b s = .next t) : t.mem = s.mem := by
  rcases jumpIf_cases h with ⟨r, -, ⟨-, rfl⟩ | ⟨-, rfl⟩⟩ | ⟨-, rfl⟩ <;> rfl

/-- Everything an instruction can do to the memory. -/
theorem exec_mem_cases (h : exec i s = .next t) :
    t.mem = s.mem ∨ ∃ a v, storeAddress i s = some a ∧ storeValue i s = some v ∧ t.mem = s.mem.write a v := by
  cases i with
  | st b1 b2 =>
    rcases execSt_cases h with ⟨a, b, ha, hb, rfl⟩ | ⟨-, rfl⟩
    · exact .inr ⟨_, _, by rw [storeAddress, ha]; rfl, by rw [storeValue, hb]; rfl, rfl⟩
    · exact .inl rfl
  | push b =>
    rcases execPush_cases h with ⟨r, hr, ⟨-, rfl⟩ | ⟨-, rfl⟩⟩ | ⟨-, rfl⟩
    · exact .inl rfl
    · exact .inr ⟨_, _, by rw [storeAddress, sp_decSp], by rw [storeValue, hr]; rfl, rfl⟩
    · exact .inl rfl
  | call b =>
    rcases execCall_cases h with ⟨r, -, ⟨-, ⟨-, rfl⟩ | ⟨-, rfl⟩⟩ | ⟨-, rfl⟩⟩ | ⟨-, rfl⟩
    · exact .inl rfl
    · exact .inr ⟨_, _, by rw [storeAddress, sp_decSp], rfl, rfl⟩
    · exact .inl rfl
    · exact .inl rfl
  | nop | hlt | iret | int r => cases h; exact .inl rfl
  | ret => exact .inl (mem_of_withPopped (fun _ h => by cases h; rfl) h)
  | pop r => exact .inl (mem_of_withReg (fun _ => mem_of_withPopped fun _ h => by cases h; rfl) h)
  | prn r | pra r | jmp r | inc r | dec r | not r | ldi r imm =>
    exact .inl (mem_of_withReg (fun _ h => by cases h; rfl) h)
  | jeq r | jne r | jgt r | jlt r | jle r | jge r => exact .inl (mem_of_jumpIf h)
  | ld a b => exact .inl (mem_of_withRegs (fun _ _ h => by rw [withMemRead_byte] at h; cases h; rfl) h)
  | add a b | sub a b | mul a b | cmp a b | and a b | or a b | xor a b | shl a b | shr a b =>
    exact .inl (mem_of_withRegs (fun _ _ h => by cases h; rfl) h)
  | div a b | mod a b => exact .inl (mem_of_aluDivide h)

/-- Every instruction keeps the canonical form of the memory. -/
theorem exec_mem_wf (hwf : s.mem.wf = true) (h : exec i s = .next t) : t.mem.wf = true := by
  rcases exec_mem_cases h with same | ⟨a, v, ha, -, stored⟩
  · rwa [same]
  · rw [stored]; exact wf_write hwf (storeAddress_lt ha) v

/-- No instruction writes the heap boundary (10_state.md R19). -/
theorem exec_rh (h : exec i s = .next t) : t.rh = s.rh := by
  cases exec_outcome h with
  | completes _ _ heap _ => exact heap
  | badIndex _ result | zeroDivisor _ _ _ _ _ _ _ _ result | emptyStack _ _ result | fullStack _ _ result
  | callAtTop _ _ _ _ _ result | halts _ result => subst result; rfl

end Sys2Proof.Machine

/-! ### Every step keeps the invariant

One lemma per field of `State.Inv`: a step either raises the fault of a decoding error, which leaves all but `ir` and `run`,
or runs an instruction. -/

namespace Sys2Proof.Machine

variable {s t : State} {i : Instr} {k : FaultKind} {snap : Snapshot}

theorem step_mem_wf (hwf : s.mem.wf = true) (h : step s = .next t) : t.mem.wf = true := by
  rw [← latchIr_mem (s := s)] at hwf
  obtain ⟨-, ⟨e, -, rfl⟩ | ⟨i, rest, -, h⟩⟩ := step_cases h
  · exact hwf
  · exact exec_mem_wf hwf h

theorem step_rh (h : step s = .next t) : t.rh = s.rh := by
  obtain ⟨-, ⟨e, -, rfl⟩ | ⟨i, rest, -, h⟩⟩ := step_cases h
  · exact latchIr_rh
  · rw [exec_rh h, latchIr_rh]

/-! ### The program counter -/

/-- A decoded instruction lies in the memory, but for the operand byte of an INT at 255 (30_encoding.md R60). -/
theorem decode_fetchWindow_length {rest : List Byte} (hd : decode s.fetchWindow = .ok (i, rest)) :
    s.pc.toNat + i.length ≤ 257 := by
  obtain ⟨hpc, hop⟩ := decode_fetchWindow_ok hd
  obtain ⟨operands, hw, count⟩ := fetchWindow_cons hpc
  rw [hw, hop, decode_opcode] at hd
  simp only [Config.memSize] at hpc
  rcases takeOperands_length hd with taken | ⟨rfl, -⟩
  · have : i.length = i.mnemonic.format.length := rfl
    omega
  · have : (Instr.int none).length = 2 := rfl
    omega

/-- An instruction whose end is at most 257 leaves `pc` at most 257: it cannot go further than by advancing over itself. -/
theorem exec_pc_le (hend : s.pc.toNat + i.length ≤ 257) (h : exec i s = .next t) : t.pc.toNat ≤ 257 := by
  cases exec_pcOutcome h with
  | stays kept _ => rw [kept]; omega
  | advances sequential _ => rw [sequential, BitVec.toNat_add, BitVec.toNat_ofNat]; omega
  | jumps target arrived _ _ => rw [arrived]; exact (toWord9_toNat_le target).trans (by decide)

/-- `pc` stays at most 257 (10_state.md R16). -/
theorem step_pc_le (hpc : s.pc.toNat ≤ 257) (h : step s = .next t) : t.pc.toNat ≤ 257 := by
  obtain ⟨-, ⟨e, -, rfl⟩ | ⟨i, rest, hd, h⟩⟩ := step_cases h
  · rwa [faultedWith_pc, latchIr_pc]
  · exact exec_pc_le (by rw [latchIr_pc]; exact decode_fetchWindow_length hd) h

/-! ### The record of a fault -/

theorem step_snapshot (h : step s = .next t) (ht : t.run = .faulted k snap) : snap = t.snapshot := by
  obtain ⟨hs, ⟨e, -, rfl⟩ | ⟨i, rest, -, h⟩⟩ := step_cases h
  · exact faultedWith_records_snapshot ht
  · exact exec_snapshot (by rwa [latchIr_run]) h ht

/-- Decoding raises no fault of the stack, so a step that ends in one ran an instruction that did. -/
theorem step_fault_by_exec (h : step s = .next t) (ht : t.run = .faulted k snap)
    (hk : k = .stackOverflow ∨ k = .stackUnderflow) : s.latchIr.run = .running ∧ ∃ i, exec i s.latchIr = .next t := by
  obtain ⟨hs, ⟨e, -, rfl⟩ | ⟨i, rest, -, h⟩⟩ := step_cases h
  · obtain rfl : faultOfDecodeError e = k := by injection ht
    cases e <;> simp [faultOfDecodeError] at hk
  · exact ⟨by rwa [latchIr_run], i, h⟩

/-- After an overflow the stack pointer is at the heap boundary (60_exceptions.md R154). -/
theorem step_stackOverflow_sp (h : step s = .next t) (ht : t.run = .faulted .stackOverflow snap) :
    t.sp.toNat = t.rh.toNat := by
  obtain ⟨hs, i, h⟩ := step_fault_by_exec h ht (.inl rfl)
  obtain ⟨full, -, rfl⟩ := exec_stackOverflow hs h ht
  rwa [sp_faultedWith, sp_decSp]

/-- After an underflow the stack pointer is at its reset value (60_exceptions.md R156). -/
theorem step_stackUnderflow_sp (h : step s = .next t) (ht : t.run = .faulted .stackUnderflow snap) : t.sp = spInit := by
  obtain ⟨hs, i, h⟩ := step_fault_by_exec h ht (.inr rfl)
  obtain ⟨empty, -, rfl⟩ := exec_stackUnderflow hs h ht
  exact empty

/-- Settles O48, field by field of the invariant. -/
theorem everyStepKeepsInvariant : Obligations.EveryStepKeepsInvariant := fun _ _ inv h =>
  { memCanonical := step_mem_wf inv.memCanonical h
    pcInRange := step_pc_le inv.pcInRange h
    rhInRange := step_rh h ▸ inv.rhInRange
    snapshotFrozen := fun _ _ ht => step_snapshot h ht
    overflowAtHeap := fun _ ht => step_stackOverflow_sp h ht
    underflowAtBase := fun _ ht => step_stackUnderflow_sp h ht }

end Sys2Proof.Machine

/-! ### Output (70_reset_and_hazards.md R189)

PRN and PRA append one event where they do not fault, and every other instruction leaves `out` as it was, so a run only
extends it. -/

namespace Sys2Proof.Machine

variable {s t : State} {i : Instr}

/-- If the result is a next state, its output is that of `s`. -/
def KeepsOut (s : State) (r : Result) : Prop := ∀ t, r = .next t → t.out = s.out

theorem keepsOut_next (h : t.out = s.out) : KeepsOut s (.next t) := fun _ ht => by cases ht; exact h

/-! ### What the instructions are made of keeps the output -/

theorem withReg_keepsOut {b : Byte} {next : RegIdx → Result} (hn : ∀ r, KeepsOut s (next r)) :
    KeepsOut s (withReg b s next) := fun t h => by
  rcases withReg_cases h with ⟨r, -, h⟩ | ⟨-, rfl⟩
  · exact hn r t h
  · rfl

theorem withRegs_keepsOut {b1 b2 : Byte} {next : RegIdx → RegIdx → Result} (hn : ∀ a b, KeepsOut s (next a b)) :
    KeepsOut s (withRegs b1 b2 s next) :=
  withReg_keepsOut fun a => withReg_keepsOut (hn a)

theorem withPopped_keepsOut {next : Byte → Result} (hn : ∀ v, KeepsOut s (next v)) : KeepsOut s (withPopped s next) :=
  fun t h => by
    rcases withPopped_cases h with ⟨-, rfl⟩ | ⟨-, h⟩
    · rfl
    · exact hn _ t h

theorem aluDivide_keepsOut (f : Byte → Byte → Byte) (b1 b2 : Byte) : KeepsOut s (aluDivide f b1 b2 s) := fun t h => by
  rcases aluDivide_cases h with ⟨a, b, -, -, ⟨-, rfl⟩ | ⟨-, rfl⟩⟩ | ⟨-, rfl⟩ <;> rfl

theorem jumpIf_keepsOut (c : Cond) (b : Byte) : KeepsOut s (jumpIf c b s) := fun t h => by
  rcases jumpIf_cases h with ⟨r, -, ⟨-, rfl⟩ | ⟨-, rfl⟩⟩ | ⟨-, rfl⟩ <;> rfl

theorem execPush_keepsOut (b : Byte) : KeepsOut s (execPush b s) := fun t h => by
  rcases execPush_cases h with ⟨r, -, ⟨-, rfl⟩ | ⟨-, rfl⟩⟩ | ⟨-, rfl⟩ <;> rfl

theorem execCall_keepsOut (b : Byte) : KeepsOut s (execCall b s) := fun t h => by
  rcases execCall_cases h with ⟨r, -, ⟨-, ⟨-, rfl⟩ | ⟨-, rfl⟩⟩ | ⟨-, rfl⟩⟩ | ⟨-, rfl⟩ <;> rfl

/-! ### The instructions -/

/-- Every instruction other than PRN and PRA keeps the output. -/
theorem exec_keepsOut (hprn : ∀ r, i ≠ .prn r) (hpra : ∀ r, i ≠ .pra r) (s : State) : KeepsOut s (exec i s) := by
  cases i with
  | prn r => exact absurd rfl (hprn r)
  | pra r => exact absurd rfl (hpra r)
  | nop | hlt | iret | int r => exact keepsOut_next rfl
  | ret => exact withPopped_keepsOut fun _ => keepsOut_next rfl
  | push r => exact execPush_keepsOut r
  | pop r => exact withReg_keepsOut fun _ => withPopped_keepsOut fun _ => keepsOut_next rfl
  | call r => exact execCall_keepsOut r
  | jmp r | inc r | dec r | not r | ldi r imm => exact withReg_keepsOut fun _ => keepsOut_next rfl
  | jeq r | jne r | jgt r | jlt r | jle r | jge r => exact jumpIf_keepsOut _ r
  | ld a b => exact withRegs_keepsOut fun _ _ => by rw [withMemRead_byte]; exact keepsOut_next rfl
  | st a b => exact withRegs_keepsOut fun _ _ => by rw [withMemWrite_byte]; exact keepsOut_next rfl
  | add a b | sub a b | mul a b | cmp a b | and a b | or a b | xor a b | shl a b | shr a b =>
    exact withRegs_keepsOut fun _ _ => keepsOut_next rfl
  | div a b | mod a b => exact aluDivide_keepsOut _ a b

/-- PRN and PRA: an operand check, and then always a next state (42_data_move.md R113, R114). -/
theorem withReg_next_cases {b : Byte} {result : RegIdx → State} (h : withReg b s (fun r => .next (result r)) = .next t) :
    (∃ r, regIndex b = some r ∧ t = result r) ∨ (regIndex b = none ∧ t = s.faultedWith .outOfRangeAddress) :=
  (withReg_cases h).imp_left fun ⟨r, hr, h⟩ => ⟨r, hr, by injection h with h; exact h.symm⟩

/-- What an instruction can do to the output. -/
theorem exec_out_cases (h : exec i s = .next t) :
    t.out = s.out ∨
      (∃ r v, i = .prn r ∧ t.out = s.out ++ [.num v] ∧ t.run = s.run) ∨
      (∃ r v, i = .pra r ∧ t.out = s.out ++ [.chr v] ∧ t.run = s.run) := by
  cases i with
  | prn b =>
    rcases withReg_next_cases h with ⟨r, -, rfl⟩ | ⟨-, rfl⟩
    · exact .inr (.inl ⟨b, s.reg r, rfl, rfl, rfl⟩)
    · exact .inl rfl
  | pra b =>
    rcases withReg_next_cases h with ⟨r, -, rfl⟩ | ⟨-, rfl⟩
    · exact .inr (.inr ⟨b, s.reg r, rfl, rfl, rfl⟩)
    · exact .inl rfl
  | _ => exact .inl (exec_keepsOut (by simp) (by simp) s t h)

/-! ### Steps and runs -/

theorem exec_out_append (h : exec i s = .next t) : ∃ es : List Event, t.out = s.out ++ es ∧ es.length ≤ 1 := by
  rcases exec_out_cases h with same | ⟨-, v, -, appended, -⟩ | ⟨-, v, -, appended, -⟩
  · exact ⟨[], by rw [same, List.append_nil], Nat.zero_le 1⟩
  · exact ⟨_, appended, le_rfl⟩
  · exact ⟨_, appended, le_rfl⟩

/-- A step appends at most one event. -/
theorem step_out_append (h : step s = .next t) : ∃ es : List Event, t.out = s.out ++ es ∧ es.length ≤ 1 := by
  obtain ⟨-, ⟨e, -, rfl⟩ | ⟨i, rest, -, h⟩⟩ := step_cases h
  · exact ⟨[], by rw [faultedWith_out, latchIr_out, List.append_nil], Nat.zero_le 1⟩
  · rw [← latchIr_out (s := s)]; exact exec_out_append h

/-- A run of `n` steps appends at most `n` events. -/
theorem runFuel_out_append (n : Nat) (s : State) :
    ∃ es : List Event, (runFuel n s).out = s.out ++ es ∧ es.length ≤ n := by
  induction n generalizing s with
  | zero => exact ⟨[], (List.append_nil _).symm, le_rfl⟩
  | succ n ih =>
    by_cases hstep : ∃ t, step s = .next t
    · obtain ⟨t, hstep⟩ := hstep
      obtain ⟨first, hfirst, one⟩ := step_out_append hstep
      obtain ⟨later, hlater, count⟩ := ih t
      refine ⟨first ++ later, ?_, ?_⟩
      · rw [runFuel_succ_next hstep, hlater, hfirst, List.append_assoc]
      · rw [List.length_append]; omega
    · rw [runFuel_of_no_next (not_exists.1 hstep)]
      exact ⟨[], (List.append_nil _).symm, Nat.zero_le _⟩

/-- Settles O39, from what an instruction can do to the output and by induction on the number of steps. -/
theorem outputIsAppendOnly : Obligations.OutputIsAppendOnly :=
  ⟨fun _ _ _ h => exec_out_cases h, runFuel_out_append⟩

end Sys2Proof.Machine

/-! ### Round trip of decoder and encoder (30_encoding.md sections 1 to 3)

The opcode byte gives back the mnemonic (`dispatchTable_complete`, `dispatchTable_sound`); what is left is that taking
operands and writing them are inverse to each other, per format. -/

namespace Sys2Proof

variable {m : Mnemonic} {i : Instr} {bytes rest : List Byte}

/-- Taking operands reads back what a well-formed instruction writes, and leaves the bytes after it. -/
theorem takeOperands_operands (hwf : i.wf = true) (rest : List Byte) :
    takeOperands i.mnemonic (i.operands ++ rest) = .ok (i, rest) := by
  cases i with
  | int o =>
    cases o with
    | none => cases hwf
    | some b => rfl
  | _ => rfl

/-- What taking operands reads, the instruction writes: the other direction, also for an INT that found no byte. -/
theorem operands_of_takeOperands (h : takeOperands m bytes = .ok (i, rest)) : i.operands ++ rest = bytes := by
  cases m with
  | NOP | HLT | RET | IRET => cases h; rfl
  | INT =>
    rcases takeInt_eq_ok.1 h with ⟨b, rfl, rfl⟩ | ⟨rfl, rfl, rfl⟩ <;> rfl
  | PUSH | POP | PRN | PRA | CALL | JMP | JEQ | JNE | JGT | JLT | JLE | JGE | INC | DEC | NOT =>
    obtain ⟨b, rfl, rfl⟩ := takeOne_eq_ok.1 h
    rfl
  | LDI | LD | ST | ADD | SUB | MUL | DIV | MOD | CMP | AND | OR | XOR | SHL | SHR =>
    obtain ⟨b, c, rfl, rfl⟩ := takeTwo_eq_ok.1 h
    rfl

/-- Settles O2: an injective map finds the mnemonic by its opcode, and its operands are taken as they were written. -/
theorem decodeInvertsEncode : Obligations.DecodeInvertsEncode := by
  intro map hinj i hwf rest
  have opcode_found : decodeWith map (encodeWith map i ++ rest) = takeOperands i.mnemonic (i.operands ++ rest) :=
    decodeWith_cons_some (dispatchTable_complete hinj i.mnemonic) _
  rw [opcode_found, takeOperands_operands hwf]

/-- Settles O3: only an opcode of the map decodes, and it is that of the instruction read, whose operands are the bytes
taken. -/
theorem encodeInvertsDecode : Obligations.EncodeInvertsDecode := by
  intro map bytes rest i h
  cases bytes with
  | nil => cases h
  | cons op operands =>
    cases hm : dispatchTable map op with
    | none => rw [decodeWith_cons_none hm] at h; cases h
    | some m =>
      rw [decodeWith_cons_some hm] at h
      have opcode : map i.mnemonic = op := by rw [takeOperands_mnemonic h, dispatchTable_sound hm]
      rw [encodeWith, List.cons_append, opcode, operands_of_takeOperands h]

theorem decode_encode_append (hwf : i.wf = true) (rest : List Byte) : decode (encode i ++ rest) = .ok (i, rest) :=
  decodeInvertsEncode opcodeMap opcodeMap_injective i hwf rest

theorem decode_encode (hwf : i.wf = true) : decode (encode i) = .ok (i, []) := by
  rw [← List.append_nil (encode i), decode_encode_append hwf]

/-- Settles O1: each word written out is the encoding of its instruction, which decodes to it. -/
theorem encodedWordsDecodeAsTabulated : Obligations.EncodedWordsDecodeAsTabulated :=
  ⟨decode_encode (i := .nop) rfl, decode_encode (i := .hlt) rfl, decode_encode (i := .ret) rfl,
    decode_encode (i := .push 3) rfl, decode_encode (i := .prn 0) rfl, decode_encode (i := .call 1) rfl,
    decode_encode (i := .int (some 0xFF)) rfl, decode_encode (i := .jge 2) rfl, decode_encode (i := .not 2) rfl,
    decode_encode (i := .ldi 0 8) rfl, decode_encode (i := .st 4 1) rfl, decode_encode (i := .add 0 1) rfl,
    decode_encode (i := .cmp 0 1) rfl⟩

/-- A byte is no mnemonic's opcode exactly when it is not in the opcode column of the table (30_encoding.md R54). -/
theorem opcodeMap_ne_iff {op : Byte} : (∀ m, opcodeMap m ≠ op) ↔ op ∉ Mnemonic.all.map opcodeMap := by
  simp [Mnemonic.mem_all]

/-- Settles O13: decoding rejects exactly the bytes that are no mnemonic's opcode, and the list is the opcode column of the
table. -/
theorem unassignedBytesAreRejected : Obligations.UnassignedBytesAreRejected := by
  intro b rest
  rw [decode_eq_unrecognizedOpcode, and_iff_left rfl]
  exact opcodeMap_ne_iff

end Sys2Proof

/-! ### Reset and load (10_state.md section 10, 70_reset_and_hazards.md section 1) -/

namespace Sys2Proof.Machine

variable {image : List Byte} {s t : State}

/-- A cell after a run of bytes is stored: the byte whose place it is, else what it was (20_memory.md R32). -/
theorem read_storeBytes (bs : List Byte) {m : Memory} {a : Nat} (hwf : m.wf = true)
    (fits : a + bs.length ≤ Config.memSize) (c : Nat) :
    (m.storeBytes a bs).read c = if a ≤ c then bs.getD (c - a) (m.read c) else m.read c := by
  induction bs generalizing m a with
  | nil => rw [Memory.storeBytes, List.getD_nil, ite_self]
  | cons b bs ih =>
    rw [List.length_cons] at fits
    have ha : a < Config.memSize := by omega
    rw [Memory.storeBytes, if_pos ha, ih (wf_write hwf ha b) (by omega)]
    rcases lt_trichotomy c a with below | rfl | above
    · rw [if_neg (by omega), if_neg (by omega), read_write_other b (by omega)]
    · rw [if_neg (by omega), if_pos le_rfl, Nat.sub_self, List.getD_cons_zero, read_write_same hwf]
    · rw [if_pos (by omega), if_pos (by omega), read_write_other b (by omega),
        show c - a = c - (a + 1) + 1 by omega, List.getD_cons_succ]

/-- The state an image of at most 256 bytes is loaded into (70_reset_and_hazards.md R181). -/
def loaded (image : List Byte) : State :=
  { State.reset with mem := Memory.storeBytes [] 0 image, rh := BitVec.ofNat 9 image.length }

theorem load_of_fits (fits : image.length ≤ Config.memSize) : load image = .next (loaded image) := if_pos fits

theorem load_of_too_long (long : Config.memSize < image.length) : load image = .refused (.imageTooLong image.length) :=
  if_neg (Nat.not_le.2 long)

theorem load_eq_next (h : load image = .next t) : image.length ≤ Config.memSize ∧ t = loaded image := by
  rcases le_or_gt image.length Config.memSize with fits | long
  · rw [load_of_fits fits] at h
    exact ⟨fits, by injection h with h; exact h.symm⟩
  · rw [load_of_too_long long] at h; cases h

theorem loaded_rh (fits : image.length ≤ Config.memSize) : (loaded image).rh.toNat = image.length := by
  have small : image.length < 2 ^ 9 := Nat.lt_of_le_of_lt fits (by decide)
  exact (BitVec.toNat_ofNat _ _).trans (Nat.mod_eq_of_lt small)

theorem loaded_read (fits : image.length ≤ Config.memSize) (a : Nat) :
    (loaded image).mem.read a = image.getD a memFill := by
  have stored := read_storeBytes image wf_nil (by rwa [Nat.zero_add]) a
  rwa [if_pos (Nat.zero_le a), Nat.sub_zero, read_nil] at stored

theorem reset_reg {i : RegIdx} (hi : i ≠ Config.spIndex) : State.reset.reg i = regInit := by
  revert i; decide

/-- Settles O5: the image is read back by `loaded_read`, and the other fields are those of the reset state. -/
theorem loadPlacesImageAndResetsTheRest : Obligations.LoadPlacesImageAndResetsTheRest := by
  refine ⟨?_, fun image long => load_of_too_long long, rfl⟩
  intro image fits
  refine ⟨loaded image, load_of_fits fits, rfl, loaded_rh fits, rfl, rfl, rfl, rfl, fun i hi => reset_reg hi, ?_⟩
  intro a ha
  rw [byteAt_of_lt ha, loaded_read fits]

/-- A running state has no fault to record, so the invariant is about its memory, `pc` and `rh` alone. -/
theorem inv_of_running (hrun : s.run = .running) (hmem : s.mem.wf = true) (hpc : s.pc.toNat ≤ 257)
    (hrh : s.rh.toNat ≤ Config.memSize) : s.Inv where
  memCanonical := hmem
  pcInRange := hpc
  rhInRange := hrh
  snapshotFrozen _ _ h := by rw [hrun] at h; cases h
  overflowAtHeap _ h := by rw [hrun] at h; cases h
  underflowAtBase _ h := by rw [hrun] at h; cases h

/-- Settles O6: the reset state runs with an empty memory, `pc = 0` and `rh = 0`. -/
theorem resetMeetsInvariant : Obligations.ResetMeetsInvariant :=
  inv_of_running rfl reset_mem_wf (by decide) (by decide)

/-- Settles O7: what is loaded runs from `pc = 0`, its memory is canonical since storing bytes keeps that, and its image
fits the memory. -/
theorem loadMeetsInvariant : Obligations.LoadMeetsInvariant := by
  intro image t h
  obtain ⟨fits, rfl⟩ := load_eq_next h
  exact inv_of_running rfl (wf_storeBytes image 0 wf_nil) (Nat.zero_le _) ((loaded_rh fits).le.trans fits)

end Sys2Proof.Machine

/-! ### Results of the arithmetic and logic instructions (41_alu.md)

With legal register bytes each instruction is one equation, `alu2_of_legal`, `alu1_of_legal`, `aluDivide_of_ne_zero`,
`execCmp_of_legal`; what is left is a fact about the function of bytes it computes. -/

namespace Sys2Proof.Machine

variable {s : State} {b1 b2 x y : Byte} {a b r : RegIdx}

theorem alu2_of_legal (h1 : regIndex b1 = some a) (h2 : regIndex b2 = some b) (f : Byte → Byte → Byte) :
    alu2 f b1 b2 s = .next { s with regs := s.regs.set a (f (s.reg a) (s.reg b)), pc := s.pc + 3 } :=
  withRegs_some h1 h2 _

theorem alu1_of_legal (hr : regIndex b1 = some r) (g : Byte → Byte) :
    alu1 g b1 s = .next { s with regs := s.regs.set r (g (s.reg r)), pc := s.pc + 2 } :=
  withReg_some hr _

theorem aluDivide_of_ne_zero (h1 : regIndex b1 = some a) (h2 : regIndex b2 = some b) (hne : s.reg b ≠ 0)
    (f : Byte → Byte → Byte) :
    aluDivide f b1 b2 s = .next { s with regs := s.regs.set a (f (s.reg a) (s.reg b)), pc := s.pc + 3 } :=
  (withRegs_some h1 h2 _).trans (if_neg hne)

theorem execCmp_of_legal (h1 : regIndex b1 = some a) (h2 : regIndex b2 = some b) :
    execCmp b1 b2 s = .next { s with fl := compareFl (s.reg a) (s.reg b), pc := s.pc + 3 } :=
  withRegs_some h1 h2 _

/-! ### Results that wrap are those of bytes (decision D5) -/

theorem toNat_wrap {n : Nat} (h : n < 256) : (wrap n).toNat = n :=
  (BitVec.toNat_ofNat n 8).trans (Nat.mod_eq_of_lt h)

theorem aluAdd_eq (x y : Byte) : aluAdd x y = x + y := by
  rw [aluAdd, wrap, BitVec.ofNat_add, BitVec.ofNat_toNat, BitVec.ofNat_toNat, BitVec.setWidth_eq, BitVec.setWidth_eq]

theorem aluMul_eq (x y : Byte) : aluMul x y = x * y := by
  apply BitVec.eq_of_toNat_eq
  rw [aluMul, wrap, BitVec.toNat_ofNat, BitVec.toNat_mul]

theorem wrapInt_sub (x y : Byte) : wrapInt ((x.toNat : Int) - (y.toNat : Int)) = x - y := by
  apply BitVec.eq_of_toInt_eq
  rw [wrapInt, BitVec.toInt_ofInt, BitVec.toInt_sub, BitVec.toInt_eq_toNat_bmod, BitVec.toInt_eq_toNat_bmod]
  simp

theorem aluSub_eq (x y : Byte) : aluSub x y = x - y := wrapInt_sub x y

theorem aluInc_eq (x : Byte) : aluInc x = x + 1 := aluAdd_eq x 1

theorem aluDec_eq (x : Byte) : aluDec x = x - 1 := wrapInt_sub x 1

theorem aluNot_eq (x : Byte) : aluNot x = ~~~ x := by
  apply BitVec.eq_of_toNat_eq
  rw [aluNot, toNat_wrap (by omega), BitVec.toNat_not]

/-- Settles O16, from the results being those of bytes. -/
theorem addSubMulResults : Obligations.AddSubMulResults := by
  intro s b1 b2 a b h1 h2
  rw [← aluAdd_eq, ← aluSub_eq, ← aluMul_eq]
  exact ⟨alu2_of_legal h1 h2 _, alu2_of_legal h1 h2 _, alu2_of_legal h1 h2 _⟩

/-- Settles O20, from the results being those of bytes. -/
theorem notIncDecResults : Obligations.NotIncDecResults := by
  intro s b1 r hr
  rw [← aluNot_eq, ← aluInc_eq, ← aluDec_eq]
  exact ⟨alu1_of_legal hr _, alu1_of_legal hr _, alu1_of_legal hr _⟩

/-! ### Division (41_alu.md R101, R102) -/

theorem aluDiv_toNat (x y : Byte) : (aluDiv x y).toNat = x.toNat / y.toNat :=
  toNat_wrap (Nat.lt_of_le_of_lt (Nat.div_le_self _ _) x.isLt)

theorem aluMod_toNat (x y : Byte) : (aluMod x y).toNat = x.toNat % y.toNat :=
  toNat_wrap (Nat.lt_of_le_of_lt (Nat.mod_le _ _) x.isLt)

theorem toNat_pos_of_ne_zero (h : x ≠ 0) : 0 < x.toNat :=
  Nat.pos_of_ne_zero fun hx => h (BitVec.eq_of_toNat_eq hx)

/-- Settles O17: quotient and remainder are those of the unsigned numbers, and neither wraps. -/
theorem divModResults : Obligations.DivModResults := by
  intro s b1 b2 a b h1 h2
  refine ⟨fun hne => ⟨_, _, aluDivide_of_ne_zero h1 h2 hne _, aluDivide_of_ne_zero h1 h2 hne _, ?_, ?_⟩, fun zero =>
    ⟨aluDivide_of_zero h1 h2 zero _, aluDivide_of_zero h1 h2 zero _⟩⟩
  · rw [aluDiv_toNat, aluMod_toNat, Nat.div_add_mod]
  · rw [aluMod_toNat]; exact Nat.mod_lt _ (toNat_pos_of_ne_zero hne)

/-! ### Results given bit by bit -/

/-- Settles O18, from the bits of the bitwise operations on bytes. -/
theorem andOrXorResults : Obligations.AndOrXorResults := by
  intro s b1 b2 a b h1 h2
  exact ⟨_, _, _, alu2_of_legal h1 h2 aluAnd, alu2_of_legal h1 h2 aluOr, alu2_of_legal h1 h2 aluXor, fun k _ =>
    ⟨BitVec.getLsbD_and, BitVec.getLsbD_or, BitVec.getLsbD_xor⟩⟩

theorem aluShl_eq (x y : Byte) : aluShl x y = x <<< y.toNat := by
  apply BitVec.eq_of_toNat_eq
  rw [aluShl, wrap, BitVec.toNat_ofNat, BitVec.toNat_shiftLeft, Nat.shiftLeft_eq]

theorem aluShr_eq (x y : Byte) : aluShr x y = x >>> y.toNat := by
  apply BitVec.eq_of_toNat_eq
  rw [aluShr, toNat_wrap (Nat.lt_of_le_of_lt (Nat.div_le_self _ _) x.isLt), BitVec.toNat_ushiftRight,
    Nat.shiftRight_eq_div_pow]

theorem aluShl_bit {k : Nat} (hk : k < 8) :
    (aluShl x y).getLsbD k = (decide (y.toNat ≤ k) && x.getLsbD (k - y.toNat)) := by
  rw [aluShl_eq, BitVec.getLsbD_shiftLeft]
  simp [hk, ← decide_not]

theorem aluShr_bit (k : Nat) : (aluShr x y).getLsbD k = x.getLsbD (k + y.toNat) := by
  rw [aluShr_eq, BitVec.getLsbD_ushiftRight, Nat.add_comm]

/-- Settles O19: the two results are the shifts of a byte by a number, which lose every bit from a count of 8 on. -/
theorem shiftResults : Obligations.ShiftResults := by
  intro s b1 b2 a b h1 h2
  refine ⟨_, _, alu2_of_legal h1 h2 aluShl, alu2_of_legal h1 h2 aluShr, fun k hk => ⟨aluShl_bit hk, aluShr_bit k⟩, ?_⟩
  intro all
  exact ⟨by rw [aluShl_eq, BitVec.shiftLeft_eq_zero all]; rfl, by rw [aluShr_eq, BitVec.ushiftRight_eq_zero all]; rfl⟩

/-! ### Compare (41_alu.md R97) -/

theorem compareFl_eq_eq : compareFl x y = .eq ↔ x.toNat = y.toNat := by
  unfold compareFl
  split
  · exact iff_of_true rfl (congrArg BitVec.toNat ‹x = y›)
  · have unequal : x.toNat ≠ y.toNat := fun h => ‹x ≠ y› (BitVec.eq_of_toNat_eq h)
    split <;> exact iff_of_false nofun unequal

theorem compareFl_eq_lt : compareFl x y = .lt ↔ x.toNat < y.toNat := by
  unfold compareFl
  split
  · subst y; exact iff_of_false nofun (lt_irrefl _)
  · split
    · exact iff_of_true rfl ‹_›
    · exact iff_of_false nofun ‹_›

theorem compareFl_eq_gt : compareFl x y = .gt ↔ y.toNat < x.toNat := by
  unfold compareFl
  split
  · subst y; exact iff_of_false nofun (lt_irrefl _)
  · have unequal : x.toNat ≠ y.toNat := fun h => ‹x ≠ y› (BitVec.eq_of_toNat_eq h)
    split
    · exact iff_of_false nofun (by omega)
    · exact iff_of_true rfl (by omega)

/-- Settles O21, from the three flags being the three cases of the unsigned order. -/
theorem cmpSetsFlagByUnsignedOrder : Obligations.CmpSetsFlagByUnsignedOrder := by
  intro s b1 b2 a b h1 h2
  exact ⟨_, execCmp_of_legal h1 h2, compareFl_eq_eq, compareFl_eq_lt, compareFl_eq_gt, compareFl_ne_none _ _,
    fun same => compareFl_eq_eq.2 (same ▸ rfl)⟩

end Sys2Proof.Machine

/-! ### Results of data movement, jumps and the system instructions (42_data_move.md, 44_control_flow.md)

With legal register bytes each of these instructions is the state it answers: the operand checks fall away by `withReg_some`
and `withRegs_some`, and no access to the address in a register can fault (20_memory.md R45). -/

namespace Sys2Proof.Machine

variable {s : State} {b1 b2 : Byte} {a b r : RegIdx}

theorem execLd_of_legal (h1 : regIndex b1 = some a) (h2 : regIndex b2 = some b) :
    execLd b1 b2 s = .next { s with regs := s.regs.set a (s.mem.read (s.reg b).toNat), pc := s.pc + 3 } :=
  (withRegs_some h1 h2 _).trans (withMemRead_byte _ _)

theorem execSt_of_legal (h1 : regIndex b1 = some a) (h2 : regIndex b2 = some b) :
    execSt b1 b2 s = .next { s with mem := s.mem.write (s.reg a).toNat (s.reg b), pc := s.pc + 3 } :=
  (withRegs_some h1 h2 _).trans (withMemWrite_byte _ _ _)

theorem execJmp_of_legal (hr : regIndex b1 = some r) : execJmp b1 s = .next (s.jumpTo (s.reg r)) := withReg_some hr _

/-- A byte is the same address in nine bits. -/
theorem toWord9_toNat (v : Byte) : v.toWord9.toNat = v.toNat := by
  have := v.isLt
  rw [Byte.toWord9, BitVec.toNat_setWidth, Nat.mod_eq_of_lt (by omega)]

/-- Settles O22, from the equations of LDI and LD with legal register bytes. -/
theorem loadInstructionResults : Obligations.LoadInstructionResults :=
  ⟨fun _ _ _ _ hr => withReg_some hr _, fun _ _ _ _ _ h1 h2 => execLd_of_legal h1 h2⟩

/-- Settles O23: ST is one write to the memory, which `read_write_same` and `read_write_other` describe. -/
theorem stStoresOneByte : Obligations.StStoresOneByte := by
  intro s b1 b2 a b hwf h1 h2
  exact ⟨_, execSt_of_legal h1 h2, wf_write hwf (byte_in_memory _) _, read_write_same hwf _ _,
    fun c hc => read_write_other _ hc _⟩

/-- Settles O24: past the operand check, PRN and PRA are the state written out. -/
theorem printInstructionsAppendEvent : Obligations.PrintInstructionsAppendEvent :=
  fun _ _ _ hr => ⟨withReg_some hr _, withReg_some hr _⟩

/-- Settles O32: the target is a byte, so its number survives in nine bits. -/
theorem jmpSetsPc : Obligations.JmpSetsPc :=
  fun _ _ _ hr => ⟨_, execJmp_of_legal hr, toWord9_toNat _, rfl⟩

/-- Settles O34: these four have no operand to check, so `exec` is the state written out. -/
theorem nopIntIretHltResults : Obligations.NopIntIretHltResults := fun _ _ => ⟨rfl, rfl, rfl, rfl⟩

end Sys2Proof.Machine

/-! ### Results of the stack instructions, CALL and RET (43_stack.md, 44_control_flow.md section 1)

One equation per instruction where it does not fault: `execPush_of_room`, `execCall_of_room`, `execPop_of_nonempty`,
`execRet_of_nonempty`. -/

namespace Sys2Proof.Machine

variable {s : State} {b1 b2 : Byte} {r r' : RegIdx}

/-- The state after a `Push(v)` that does not overflow (43_stack.md R120). -/
def State.pushed (s : State) (v : Byte) : State := { s.decSp with mem := s.mem.write (s.sp - 1).toNat v }

@[simp] theorem pushed_sp (v : Byte) : (s.pushed v).sp = s.sp - 1 := sp_decSp s

theorem pushed_reg_other {j : RegIdx} (hj : j ≠ Config.spIndex) (v : Byte) : (s.pushed v).reg j = s.reg j :=
  reg_setReg_other s _ _ _ hj

theorem pushed_mem_wf (hwf : s.mem.wf = true) (v : Byte) : (s.pushed v).mem.wf = true :=
  wf_write hwf (byte_in_memory _) v

theorem pushed_read_top (hwf : s.mem.wf = true) (v : Byte) : (s.pushed v).mem.read (s.sp - 1).toNat = v :=
  read_write_same hwf _ v

theorem pushed_read_other {c : Nat} (hc : c ≠ (s.sp - 1).toNat) (v : Byte) : (s.pushed v).mem.read c = s.mem.read c :=
  read_write_other v hc s.mem

/-- The state after a POP to `x[r]` that does not underflow, `pc` aside (43_stack.md R123). -/
def State.poppedTo (s : State) (r : RegIdx) : State := (s.setReg r (s.mem.read s.sp.toNat)).incSp

theorem sp_setReg_other (hr : r ≠ Config.spIndex) (v : Byte) : (s.setReg r v).sp = s.sp :=
  reg_setReg_other s _ _ v hr.symm

theorem poppedTo_sp (hr : r ≠ Config.spIndex) : (s.poppedTo r).sp = s.sp + 1 := by
  rw [State.poppedTo, sp_incSp, sp_setReg_other hr]

theorem poppedTo_reg_same (hr : r ≠ Config.spIndex) : (s.poppedTo r).reg r = s.mem.read s.sp.toNat := by
  rw [State.poppedTo, reg_incSp, if_neg hr, reg_setReg_same]

theorem poppedTo_reg_other {j : RegIdx} (hj : j ≠ Config.spIndex) (hjr : j ≠ r) : (s.poppedTo r).reg j = s.reg j := by
  rw [State.poppedTo, reg_incSp, if_neg hj, reg_setReg_other _ _ _ _ hjr]

theorem withPush_of_room (room : (s.sp - 1).toNat ≠ s.rh.toNat) (value : State → Byte) (next : State → Result) :
    withPush value s next = next (s.pushed (value s.decSp)) :=
  (withPush_eq value next).trans (if_neg room)

theorem withPopped_of_nonempty (nonempty : s.sp ≠ spInit) (next : Byte → Result) :
    withPopped s next = next (s.mem.read s.sp.toNat) :=
  (withPopped_eq next).trans (if_neg nonempty)

theorem withPopped_of_empty (empty : s.sp = spInit) (next : Byte → Result) :
    withPopped s next = .next (s.faultedWith .stackUnderflow) :=
  (withPopped_eq next).trans (if_pos empty)

theorem execPush_of_room (room : (s.sp - 1).toNat ≠ s.rh.toNat) (hr : regIndex b1 = some r) :
    execPush b1 s = .next ((s.pushed (s.decSp.reg r)).advance 2) :=
  (withReg_some hr _).trans (withPush_of_room room _ _)

theorem execPop_of_nonempty (nonempty : s.sp ≠ spInit) (hr : regIndex b1 = some r) :
    execPop b1 s = .next ((s.poppedTo r).advance 2) :=
  (withReg_some hr _).trans (withPopped_of_nonempty nonempty _)

theorem execPop_of_empty (empty : s.sp = spInit) (hr : regIndex b1 = some r) :
    execPop b1 s = .next (s.faultedWith .stackUnderflow) :=
  (withReg_some hr _).trans (withPopped_of_empty empty _)

theorem execRet_of_nonempty (nonempty : s.sp ≠ spInit) :
    execRet s = .next (s.jumpTo (s.mem.read s.sp.toNat)).incSp :=
  withPopped_of_nonempty nonempty _

theorem execRet_of_empty (empty : s.sp = spInit) : execRet s = .next (s.faultedWith .stackUnderflow) :=
  withPopped_of_empty empty _

/-- The return address of a CALL (44_control_flow.md R130). -/
def State.returnAddress (s : State) : Byte := BitVec.ofNat 8 (s.pc.toNat + 2)

theorem execCall_of_room (fits : s.pc.toNat + 2 < Config.memSize) (room : (s.sp - 1).toNat ≠ s.rh.toNat)
    (hr : regIndex b1 = some r) : execCall b1 s = .next ((s.pushed s.returnAddress).jumpTo (s.decSp.reg r)) :=
  (withReg_some hr _).trans ((if_pos fits).trans (withPush_of_room room _ _))

/-- A CALL whose return address does not fit raises `OutOfRangeAddress`, whatever its register byte (decision D11). -/
theorem execCall_of_above (above : Config.memSize ≤ s.pc.toNat + 2) :
    execCall b1 s = .next (s.faultedWith .outOfRangeAddress) := by
  cases hr : regIndex b1 with
  | none => exact withReg_none hr _
  | some r => exact (withReg_some hr _).trans (if_neg (Nat.not_lt.2 above))

theorem returnAddress_toNat (fits : s.pc.toNat + 2 < Config.memSize) : s.returnAddress.toNat = s.pc.toNat + 2 :=
  (BitVec.toNat_ofNat _ _).trans (Nat.mod_eq_of_lt fits)

/-! ### PUSH and POP -/

/-- Settles O25: PUSH is `State.pushed` and an advance where there is room, and otherwise the overflow of `exec_of_fullStack`. -/
theorem pushStoresOrOverflows : Obligations.PushStoresOrOverflows := by
  intro s b1 r hwf hr
  rw [← reg_decSp]
  exact ⟨fun room => ⟨_, execPush_of_room room hr, pushed_mem_wf hwf _, pushed_read_top hwf _,
    fun _ hc => pushed_read_other hc _⟩, fun full => ⟨_, exec_of_fullStack full hr (.inl rfl), rfl, rfl⟩⟩

/-- The registers after a POP: for `R7` the increment is of the byte just loaded (decision D14). -/
theorem poppedTo_regs_other (hr : r ≠ Config.spIndex) :
    (s.poppedTo r).regs = (s.regs.set r (s.mem.read s.sp.toNat)).set Config.spIndex (s.sp + 1) := by
  rw [State.poppedTo, incSp_regs, sp_setReg_other hr, setReg_regs]

theorem poppedTo_regs_sp : (s.poppedTo Config.spIndex).regs = s.regs.set Config.spIndex (s.mem.read s.sp.toNat + 1) := by
  have loaded_sp : (s.setReg Config.spIndex (s.mem.read s.sp.toNat)).sp = s.mem.read s.sp.toNat := sp_setSp s _
  rw [State.poppedTo, incSp_regs, loaded_sp, setReg_regs, Vector.set_set]

/-- Settles O26, from the registers after a POP. -/
theorem popLoadsOrUnderflows : Obligations.PopLoadsOrUnderflows := by
  intro s b1 r hr
  refine ⟨fun nonempty other => ?_, fun nonempty same => ?_, fun empty => execPop_of_empty empty hr⟩
  · rw [← poppedTo_regs_other other]
    exact execPop_of_nonempty nonempty hr
  · subst same
    rw [← poppedTo_regs_sp]
    exact execPop_of_nonempty nonempty hr

/-- Settles O27: the POP finds on top of the stack what the PUSH put there, and its increment undoes the decrement. -/
theorem pushThenPopCopies : Obligations.PushThenPopCopies := by
  intro s b1 b2 r r' hwf hr hr' other other' room nonempty
  have decSp_r : s.decSp.reg r = s.reg r := (reg_decSp s r).trans (if_neg other)
  have push := execPush_of_room room hr
  rw [decSp_r] at push
  generalize ht : (s.pushed (s.reg r)).advance 2 = t at push
  have ht_sp : t.sp = s.sp - 1 := by rw [← ht, sp_advance, pushed_sp]
  have top : t.mem.read t.sp.toNat = s.reg r := by rw [ht_sp, ← ht]; exact pushed_read_top hwf _
  have sp_restored : (t.poppedTo r').sp = s.sp := by rw [poppedTo_sp other', ht_sp, BitVec.sub_add_cancel]
  refine ⟨t, _, push, execPop_of_nonempty (ht_sp ▸ nonempty) hr', ?_, sp_restored, fun j hj => ?_, ?_⟩
  · exact (poppedTo_reg_same other').trans top
  · by_cases hsp : j = Config.spIndex
    · subst hsp; exact sp_restored
    · refine (poppedTo_reg_other hsp hj).trans ?_
      rw [← ht]; exact pushed_reg_other hsp (s.reg r)
  · rw [← ht]
    exact BitVec.add_assoc s.pc 2 2

/-! ### Pushes until the heap boundary -/

/-- The state after a PUSH of `x[r]` that does not overflow. -/
def State.afterPush (r : RegIdx) (s : State) : State := (s.pushed (s.decSp.reg r)).advance 2

theorem afterPush_sp : (s.afterPush r).sp = s.sp - 1 := sp_decSp s

theorem afterPush_read_other {c : Nat} (hc : c ≠ (s.sp - 1).toNat) : (s.afterPush r).mem.read c = s.mem.read c :=
  pushed_read_other hc _

/-- The state after `k` such pushes in a row. -/
def State.afterPushes (r : RegIdx) (s : State) (k : Nat) : State := (State.afterPush r)^[k] s

theorem afterPushes_succ (k : Nat) : s.afterPushes r (k + 1) = (s.afterPushes r k).afterPush r :=
  Function.iterate_succ_apply' _ _ _

/-- What `k` pushes from `s` leave in `u` while the stack pointer stays above the heap boundary. -/
structure PushesDone (k : Nat) (s u : State) : Prop where
  lowered : u.sp.toNat = s.sp.toNat - k
  heapKept : u.rh = s.rh
  runKept : u.run = s.run
  boundaryKept : u.mem.read s.rh.toNat = s.mem.read s.rh.toNat

theorem toNat_sub_one {v : Byte} (h : 0 < v.toNat) : (v - 1).toNat = v.toNat - 1 := by
  bv_omega

theorem afterPushes_done {k : Nat} (hk : k < s.sp.toNat - s.rh.toNat) : PushesDone k s (s.afterPushes r k) := by
  induction k with
  | zero => exact ⟨rfl, rfl, rfl, rfl⟩
  | succ k ih =>
    obtain ⟨lowered, heapKept, runKept, boundaryKept⟩ := ih (by omega)
    rw [afterPushes_succ]
    generalize s.afterPushes r k = u at lowered heapKept runKept boundaryKept
    have next : (u.sp - 1).toNat = s.sp.toNat - (k + 1) := by rw [toNat_sub_one (by omega)]; omega
    exact ⟨by rw [afterPush_sp, next], heapKept, runKept, (afterPush_read_other (by omega)).trans boundaryKept⟩

/-- Settles O28: `afterPushes_done` says where the stack pointer is after `k` pushes, and so which one meets `rh`. -/
theorem pushesOverflowAtTheExactPush : Obligations.PushesOverflowAtTheExactPush := by
  intro s b r hs hr above
  refine ⟨s.afterPushes r, rfl, fun k hk => ?_, ?_⟩
  · have now : PushesDone k s (s.afterPushes r k) := afterPushes_done (by omega)
    have next : PushesDone (k + 1) s (s.afterPushes r (k + 1)) := afterPushes_done (by omega)
    refine ⟨?_, next.runKept.trans hs, next.lowered⟩
    have room : ((s.afterPushes r k).sp - 1).toNat ≠ (s.afterPushes r k).rh.toNat := by
      rw [← afterPush_sp (r := r), ← afterPushes_succ, next.lowered, now.heapKept]; omega
    rw [afterPushes_succ]
    exact execPush_of_room room hr
  · have last : PushesDone _ s (s.afterPushes r (s.sp.toNat - s.rh.toNat - 1)) := afterPushes_done (by omega)
    generalize s.afterPushes r (s.sp.toNat - s.rh.toNat - 1) = u at last
    have full : (u.sp - 1).toNat = s.rh.toNat := by
      have lowered := last.lowered
      rw [toNat_sub_one (by omega)]; omega
    have address : s.rh.toNat < Config.memSize := above.trans (byte_in_memory _)
    refine ⟨_, _, exec_of_fullStack (last.heapKept ▸ full) hr (.inl rfl), rfl, ?_, ?_⟩
    · rw [sp_faultedWith, sp_decSp, full]
    · rw [byteAt_of_lt address, byteAt_of_lt address, faultedWith_mem, decSp_mem, last.boundaryKept]

/-! ### CALL and RET -/

/-- Settles O29, case by case: room on the stack, a full stack, a return address that does not fit. -/
theorem callPushesReturnAddressOrFaults : Obligations.CallPushesReturnAddressOrFaults := by
  intro s b1 r hwf hr
  rw [← reg_decSp]
  refine ⟨fun fits room => ?_, fun fits full => ?_, fun above => execCall_of_above above⟩
  · refine ⟨_, execCall_of_room (Nat.lt_succ_of_le fits) room hr, pushed_mem_wf hwf _, ?_,
      fun _ hc => pushed_read_other hc _⟩
    rw [← returnAddress_toNat (Nat.lt_succ_of_le fits)]
    exact congrArg BitVec.toNat (pushed_read_top hwf _)
  · exact ⟨_, exec_of_fullStack full hr (.inr ⟨rfl, Nat.lt_succ_of_le fits⟩), rfl, rfl⟩

/-- Settles O30, from the equations of RET on a nonempty and on an empty stack. -/
theorem retPopsPcOrUnderflows : Obligations.RetPopsPcOrUnderflows :=
  fun _ => ⟨fun nonempty => execRet_of_nonempty nonempty, fun empty => execRet_of_empty empty⟩

/-- The return address, as an address, is that of the instruction after the CALL. -/
theorem returnAddress_toWord9 (fits : s.pc.toNat + 2 < Config.memSize) : s.returnAddress.toWord9 = s.pc + 2 := by
  apply BitVec.eq_of_toNat_eq
  rw [toWord9_toNat, returnAddress_toNat fits, BitVec.toNat_add]
  exact (Nat.mod_eq_of_lt (fits.trans (by decide))).symm

/-- Settles O31: the RET reads the cell the CALL pushed to, and its increment undoes the decrement of the CALL. -/
theorem retResumesAfterCall : Obligations.RetResumesAfterCall := by
  intro s t v b1 r hwf hr fits room nonempty call v_sp v_top
  have fits : s.pc.toNat + 2 < Config.memSize := Nat.lt_succ_of_le fits
  obtain rfl : (s.pushed s.returnAddress).jumpTo (s.decSp.reg r) = t := by
    have := execCall_of_room fits room hr
    exact Host.Outcome.next.inj (this.symm.trans call)
  rw [sp_jumpTo, pushed_sp] at v_sp v_top
  have top : v.mem.read v.sp.toNat = s.returnAddress := by
    rw [v_sp, v_top]; exact pushed_read_top hwf _
  refine ⟨_, execRet_of_nonempty (v_sp ▸ nonempty), ?_, ?_, rfl, fun j hj => ?_⟩
  · rw [top]; exact returnAddress_toWord9 fits
  · rw [sp_incSp, sp_jumpTo, v_sp, BitVec.sub_add_cancel]
  · rw [reg_incSp, if_neg hj, reg_jumpTo]

end Sys2Proof.Machine

/-! ### Frames over all instructions

The memory and `pc` frames are `exec_mem_cases` and `exec_pcOutcome` read off; the register frame is shown here. -/

namespace Sys2Proof.Machine

variable {s t : State} {i : Instr} {b1 b2 : Byte} {r j : RegIdx}

/-! ### Which register an instruction changes -/

theorem eq_of_setReg_changed {v : Byte} (changed : (s.setReg r v).reg j ≠ s.reg j) : j = r := by
  by_contra hj
  exact changed (reg_setReg_other s r j v hj)

theorem eq_spIndex_of_decSp_changed (changed : s.decSp.reg j ≠ s.reg j) : j = Config.spIndex :=
  eq_of_setReg_changed changed

theorem eq_spIndex_of_incSp_changed (changed : s.incSp.reg j ≠ s.reg j) : j = Config.spIndex :=
  eq_of_setReg_changed changed

/-- A failed operand check changes no register, so what changed one is what follows the check. -/
theorem withReg_changed {P : Prop} {next : RegIdx → Result} (h : withReg b1 s next = .next t)
    (changed : t.reg j ≠ s.reg j) (hn : ∀ r, regIndex b1 = some r → next r = .next t → P) : P := by
  rcases withReg_cases h with ⟨r, hr, h⟩ | ⟨-, rfl⟩
  · exact hn r hr h
  · exact absurd rfl changed

theorem withRegs_changed {P : Prop} {next : RegIdx → RegIdx → Result} (h : withRegs b1 b2 s next = .next t)
    (changed : t.reg j ≠ s.reg j) (hn : ∀ a b, regIndex b1 = some a → next a b = .next t → P) : P :=
  withReg_changed h changed fun a ha h => withReg_changed h changed fun b _ h => hn a b ha h

theorem withPopped_changed {P : Prop} {next : Byte → Result} (h : withPopped s next = .next t)
    (changed : t.reg j ≠ s.reg j) (hn : ∀ v, next v = .next t → P) : P := by
  rcases withPopped_cases h with ⟨-, rfl⟩ | ⟨-, h⟩
  · exact absurd rfl changed
  · exact hn _ h

theorem alu1_changed {g : Byte → Byte} (h : alu1 g b1 s = .next t) (changed : t.reg j ≠ s.reg j) :
    regIndex b1 = some j :=
  withReg_changed h changed fun r hr h => by
    cases h
    exact eq_of_setReg_changed changed ▸ hr

theorem alu2_changed {f : Byte → Byte → Byte} (h : alu2 f b1 b2 s = .next t) (changed : t.reg j ≠ s.reg j) :
    regIndex b1 = some j :=
  withRegs_changed h changed fun a b ha h => by
    cases h
    exact eq_of_setReg_changed changed ▸ ha

theorem aluDivide_changed {f : Byte → Byte → Byte} (h : aluDivide f b1 b2 s = .next t) (changed : t.reg j ≠ s.reg j) :
    regIndex b1 = some j :=
  withRegs_changed h changed fun a b ha h => by
    split at h
    · cases h; exact absurd rfl changed
    · cases h; exact eq_of_setReg_changed changed ▸ ha

theorem execLdi_changed (h : execLdi b1 b2 s = .next t) (changed : t.reg j ≠ s.reg j) : regIndex b1 = some j :=
  withReg_changed h changed fun r hr h => by
    cases h
    exact eq_of_setReg_changed changed ▸ hr

theorem execLd_changed (h : execLd b1 b2 s = .next t) (changed : t.reg j ≠ s.reg j) : regIndex b1 = some j :=
  withRegs_changed h changed fun a b ha h => by
    rw [withMemRead_byte] at h
    cases h
    exact eq_of_setReg_changed changed ▸ ha

theorem execPush_changed (h : execPush b1 s = .next t) (changed : t.reg j ≠ s.reg j) : j = Config.spIndex := by
  rcases execPush_cases h with ⟨_, -, ⟨-, rfl⟩ | ⟨-, rfl⟩⟩ | ⟨-, rfl⟩
  · exact eq_spIndex_of_decSp_changed changed
  · exact eq_spIndex_of_decSp_changed changed
  · exact absurd rfl changed

theorem execCall_changed (h : execCall b1 s = .next t) (changed : t.reg j ≠ s.reg j) : j = Config.spIndex := by
  rcases execCall_cases h with ⟨_, -, ⟨-, ⟨-, rfl⟩ | ⟨-, rfl⟩⟩ | ⟨-, rfl⟩⟩ | ⟨-, rfl⟩
  · exact eq_spIndex_of_decSp_changed changed
  · exact eq_spIndex_of_decSp_changed changed
  · exact absurd rfl changed
  · exact absurd rfl changed

theorem execPop_changed (h : execPop b1 s = .next t) (changed : t.reg j ≠ s.reg j) :
    regIndex b1 = some j ∨ j = Config.spIndex :=
  withReg_changed h changed fun r hr h => withPopped_changed h changed fun v h => by
    cases h
    by_cases hj : j = r
    · exact .inl (hj ▸ hr)
    · exact .inr (eq_spIndex_of_incSp_changed fun kept => changed (kept.trans (reg_setReg_other s r j v hj)))

theorem execRet_changed (h : execRet s = .next t) (changed : t.reg j ≠ s.reg j) : j = Config.spIndex :=
  withPopped_changed h changed fun v h => by
    cases h
    exact eq_spIndex_of_incSp_changed (s := s.jumpTo v) changed

theorem jumpIf_reg {c : Cond} (h : jumpIf c b1 s = .next t) : t.reg j = s.reg j := by
  rcases jumpIf_cases h with ⟨r, -, ⟨-, rfl⟩ | ⟨-, rfl⟩⟩ | ⟨-, rfl⟩ <;> rfl

/-- Settles O35, instruction by instruction: each has one of the shapes above, or writes no register. -/
theorem registersChangeOnlyAsTabulated : Obligations.RegistersChangeOnlyAsTabulated := by
  intro i s t j h changed
  cases i with
  | add a b | sub a b | mul a b | and a b | or a b | xor a b | shl a b | shr a b => exact alu2_changed h changed
  | div a b | mod a b => exact aluDivide_changed h changed
  | ld a b => exact execLd_changed h changed
  | not r | inc r | dec r => exact alu1_changed h changed
  | ldi r imm => exact execLdi_changed h changed
  | pop r => exact execPop_changed h changed
  | push r => exact execPush_changed h changed
  | call r => exact execCall_changed h changed
  | ret => exact execRet_changed h changed
  | nop | hlt | iret | int r => cases h; exact changed rfl
  | prn r | pra r | jmp r => exact withReg_changed h changed fun _ _ h => by cases h; exact changed rfl
  | jeq r | jne r | jgt r | jlt r | jle r | jge r => exact changed (jumpIf_reg h)
  | st a b => exact withRegs_changed h changed fun _ _ _ h => by rw [withMemWrite_byte] at h; cases h; exact changed rfl
  | cmp a b => exact withRegs_changed h changed fun _ _ _ h => by cases h; exact changed rfl

/-! ### Memory, `pc` and heap boundary -/

/-- Settles O36: an instruction keeps the memory or writes it at `storeAddress`, and a write leaves every other cell. -/
theorem memoryChangesOnlyAtStoreAddress : Obligations.MemoryChangesOnlyAtStoreAddress := by
  intro i s t a h ha
  rcases exec_mem_cases h with same | ⟨b, v, hb, -, stored⟩
  · rw [State.byteAt, State.byteAt, same]
  · have other : a ≠ b := fun hab => ha (hab ▸ hb)
    rw [State.byteAt, State.byteAt, stored, read_write_other v other]

/-- Settles O40, case by case of `PcOutcome`. -/
theorem pcAdvancesByLengthOrJumps : Obligations.PcAdvancesByLengthOrJumps := by
  intro i s t hs h
  cases exec_pcOutcome h with
  | stays kept stopped => exact ⟨fun running => absurd running stopped, fun _ => kept⟩
  | advances sequential running => exact ⟨fun _ => .inl sequential, fun stopped => absurd (running.trans hs) stopped⟩
  | jumps target arrived running which =>
    exact ⟨fun _ => .inr ⟨arrived ▸ toWord9_toNat_le target, which⟩, fun stopped => absurd (running.trans hs) stopped⟩

theorem runFuel_rh (n : Nat) (s : State) : (runFuel n s).rh = s.rh := by
  induction n generalizing s with
  | zero => rfl
  | succ n ih =>
    by_cases hstep : ∃ t, step s = .next t
    · obtain ⟨t, hstep⟩ := hstep
      rw [runFuel_succ_next hstep, ih, step_rh hstep]
    · rw [runFuel_of_no_next (not_exists.1 hstep)]

/-- Settles O38, by induction on the number of steps. -/
theorem heapBoundaryIsConstant : Obligations.HeapBoundaryIsConstant :=
  ⟨fun _ _ _ h => ⟨exec_rh h, exec_ir h⟩, runFuel_rh⟩

end Sys2Proof.Machine

/-! ### Memories in canonical form (20_memory.md section 1)

The first listed address is the lowest one that does not read as the fill, so reads find the head of the list, and then the
rest of it. -/

namespace Sys2Proof.Machine

variable {m m' : Memory} {k lo lo' : Nat} {v : Byte}

/-- A memory that lists only higher addresses reads differently at the head of a canonical one. -/
theorem read_head_ne (h : Memory.wfFrom lo ((k, v) :: m) = true) (h' : Memory.wfFrom (k + 1) m' = true) :
    Memory.read ((k, v) :: m) k ≠ m'.read k := by
  obtain ⟨-, -, hv, -⟩ := wfFrom_cons.1 h
  rw [read_cons, if_pos rfl, read_below h' (Nat.lt_succ_self k)]
  exact hv

theorem wfFrom_of_lt_head (h : Memory.wfFrom lo ((k, v) :: m) = true) {a : Nat} (ha : a < k) :
    Memory.wfFrom (a + 1) ((k, v) :: m) = true := by
  obtain ⟨-, hk, hv, hm⟩ := wfFrom_cons.1 h
  exact wfFrom_cons.2 ⟨ha, hk, hv, hm⟩

/-- Two canonical memories that read the same begin with the same address. -/
theorem head_address_eq {k' : Nat} {v' : Byte} (h : Memory.wfFrom lo ((k, v) :: m) = true)
    (h' : Memory.wfFrom lo' ((k', v') :: m') = true)
    (same : ∀ a, a < Config.memSize → Memory.read ((k, v) :: m) a = Memory.read ((k', v') :: m') a) : k = k' := by
  obtain ⟨-, hk, -, -⟩ := wfFrom_cons.1 h
  obtain ⟨-, hk', -, -⟩ := wfFrom_cons.1 h'
  rcases lt_trichotomy k k' with below | equal | above
  · exact absurd (same k hk) (read_head_ne h (wfFrom_of_lt_head h' below))
  · exact equal
  · exact absurd (same k' hk').symm (read_head_ne h' (wfFrom_of_lt_head h above))

/-- The reads of a canonical memory determine those of its tail: at the head's own address the tail reads as the fill. -/
theorem read_tail_eq {v' : Byte} (h : Memory.wfFrom (k + 1) m = true) (h' : Memory.wfFrom (k + 1) m' = true) {a : Nat}
    (same : Memory.read ((k, v) :: m) a = Memory.read ((k, v') :: m') a) : m.read a = m'.read a := by
  by_cases ha : k = a
  · subst ha; rw [read_below h (Nat.lt_succ_self k), read_below h' (Nat.lt_succ_self k)]
  · rwa [read_cons, read_cons, if_neg ha, if_neg ha] at same

theorem eq_of_wfFrom_of_read_eq (h : Memory.wfFrom lo m = true) (h' : Memory.wfFrom lo' m' = true)
    (same : ∀ a, a < Config.memSize → m.read a = m'.read a) : m = m' := by
  induction m generalizing m' lo lo' with
  | nil =>
    cases m' with
    | nil => rfl
    | cons cell m' =>
      obtain ⟨-, hk, -, -⟩ := wfFrom_cons.1 h'
      exact absurd (same _ hk).symm (read_head_ne h' (wfFrom_nil _))
  | cons cell m ih =>
    obtain ⟨k, v⟩ := cell
    obtain ⟨-, hk, -, hm⟩ := wfFrom_cons.1 h
    cases m' with
    | nil => exact absurd (same k hk) (read_head_ne h (wfFrom_nil _))
    | cons cell' m' =>
      obtain ⟨k', v'⟩ := cell'
      obtain rfl : k = k' := head_address_eq h h' same
      obtain ⟨-, -, -, hm'⟩ := wfFrom_cons.1 h'
      have values : v = v' := by
        have := same k hk
        rwa [read_cons, read_cons, if_pos rfl, if_pos rfl] at this
      rw [values, ih hm hm' fun a ha => read_tail_eq hm hm' (same a ha)]

/-- Settles O46, by induction on the list, with the head found by `head_address_eq`. -/
theorem canonicalMemoryDeterminedByReads : Obligations.CanonicalMemoryDeterminedByReads :=
  fun _ _ hm hm' same => eq_of_wfFrom_of_read_eq hm hm' same

end Sys2Proof.Machine

/-! ### Where a step finds its instruction (40_dispatch_cycle.md section 1)

The fetch window begins with any bytes that stand at `pc`, so an encoding there is what the step decodes and runs. -/

namespace Sys2Proof

theorem operands_length_le (i : Instr) : i.operands.length ≤ 2 := by
  cases i with
  | int o => cases o <;> simp [Instr.operands]
  | _ => simp [Instr.operands]

end Sys2Proof

namespace Sys2Proof.Machine

variable {s t : State} {i : Instr} {r : RegIdx}

/-- At most three bytes that stand in memory from `pc` on begin the fetch window. -/
theorem fetchWindow_begins_with {bytes : List Byte} (short : bytes.length ≤ 3)
    (there : ∀ k (h : k < bytes.length), s.byteAt (s.pc.toNat + k) = some bytes[k]) : bytes <+: s.fetchWindow := by
  rw [List.prefix_iff_getElem?]
  intro k hk
  rw [fetchWindow_getElem? (by omega), there k hk]

theorem decode_fetchWindow_of_encode (hwf : i.wf = true)
    (there : ∀ k (h : k < (encode i).length), s.byteAt (s.pc.toNat + k) = some (encode i)[k]) :
    ∃ rest, decode s.fetchWindow = .ok (i, rest) := by
  have short : (encode i).length ≤ 3 := Nat.succ_le_succ (operands_length_le i)
  obtain ⟨rest, hw⟩ := fetchWindow_begins_with short there
  exact ⟨rest, by rw [← hw, decode_encode_append hwf]⟩

/-- Settles O8, from the window beginning with the encoding and the decoder inverting the encoder. -/
theorem stepRunsTheInstructionAtPc : Obligations.StepRunsTheInstructionAtPc := by
  intro s i hs hwf there
  obtain ⟨rest, hd⟩ := decode_fetchWindow_of_encode hwf there
  obtain ⟨-, hop⟩ := decode_fetchWindow_ok hd
  exact (step_of_opcode hs hop hd).2

/-! ### When there is a step, and how it ends -/

theorem step_answersNext (hs : s.run = .running) : AnswersNext (step s) := by
  cases hd : decode s.fetchWindow with
  | error e => rw [step_error hs hd]; exact answersNext_next _
  | ok p => rw [step_ok hs hd]; exact exec_answersNext _ _

/-- Settles O9: a decoding error raises a fault, and HLT is the one instruction that halts. -/
theorem stepDefinedExactlyWhenRunning : Obligations.StepDefinedExactlyWhenRunning := by
  refine ⟨fun s => ⟨step_answersNext, fun ⟨t, h⟩ => (step_cases h).1⟩, fun s t h => ?_⟩
  obtain ⟨hs, ⟨e, -, rfl⟩ | ⟨i, rest, hd, h⟩⟩ := step_cases h
  · exact .inr (.inr ⟨_, _, rfl⟩)
  · cases exec_outcome h with
    | completes _ running _ _ => exact .inl (by rw [running, latchIr_run, hs])
    | halts which result =>
      subst which result
      obtain ⟨hpc, hop⟩ := decode_fetchWindow_ok hd
      exact .inr (.inl ⟨rfl, by rw [byteAt_of_lt hpc, hop]; rfl⟩)
    | badIndex _ result | zeroDivisor _ _ _ _ _ _ _ _ result | emptyStack _ _ result | fullStack _ _ result
    | callAtTop _ _ _ _ _ result => subst result; exact .inr (.inr ⟨_, _, rfl⟩)

/-- Settles O45: a state that is not running has no next state, so every budget leaves it. -/
theorem haltedAndFaultedAreAbsorbing : Obligations.HaltedAndFaultedAreAbsorbing :=
  fun _ hs => ⟨step_ne_next_of_not_running hs, runFuel_of_not_running hs⟩

/-- Settles O50, by budgets adding up. -/
theorem runFuelComposes : Obligations.RunFuelComposes :=
  ⟨runFuel_add, fun _ _ _ h => runFuel_succ_next h⟩

/-! ### The instruction register is written before it could be read -/

/-- The same state with another `ir`. -/
def State.withIr (s : State) (b : Byte) : State := { s with ir := b }

/-- A step that fetches an opcode does not depend on the old `ir`: latching overwrites it. -/
theorem step_withIr_of_lt (hs : s.run = .running) (hpc : s.pc.toNat < Config.memSize) (b : Byte) :
    step (s.withIr b) = step s := by
  have latched : (s.withIr b).latchIr = s.latchIr := by
    rw [latchIr_of_lt hpc]; exact latchIr_of_lt (s := s.withIr b) hpc
  cases hd : decode s.fetchWindow with
  | error e => rw [step_error hs hd, step_error (s := s.withIr b) hs hd, latched]
  | ok p => rw [step_ok hs hd, step_ok (s := s.withIr b) hs hd, latched]

/-- Settles O49: below 256 the latch overwrites `ir`, and above 255 the fetch faults and carries it along. -/
theorem instructionRegisterIsNoInput : Obligations.InstructionRegisterIsNoInput := by
  intro s t b h
  obtain ⟨hs, -⟩ := step_cases h
  by_cases hpc : s.pc.toNat ≤ 255
  · rw [if_pos hpc]
    exact (step_withIr_of_lt hs (Nat.lt_succ_of_le hpc) b).trans h
  · have above : Config.memSize ≤ s.pc.toNat := Nat.not_le.1 hpc
    rw [step_of_pc_above hs above] at h
    cases h
    rw [if_neg hpc]
    exact step_of_pc_above (s := s.withIr b) hs above

/-! ### NOP slide and jump to itself -/

theorem step_nop (hs : s.run = .running) (hpc : s.pc.toNat ≤ 255) (hop : s.mem.read s.pc.toNat = opcodeMap .NOP) :
    step s = .next { s with pc := s.pc + 1, ir := opcodeMap .NOP } := by
  refine stepRunsTheInstructionAtPc s .nop hs rfl fun k hk => ?_
  obtain rfl : k = 0 := Nat.lt_one_iff.1 hk
  rw [Nat.add_zero, byteAt_of_lt (Nat.lt_succ_of_le hpc), hop]; rfl

/-- The slide over `n + 1` NOPs that end at 255. -/
theorem runFuel_nops {n : Nat} (hs : s.run = .running) (top : s.pc.toNat + n = 255)
    (nops : ∀ a, s.pc.toNat ≤ a → a < 256 → s.mem.read a = opcodeMap .NOP) :
    runFuel (n + 1) s = { s with pc := 256, ir := opcodeMap .NOP } := by
  induction n generalizing s with
  | zero =>
    have hpc : s.pc.toNat = 255 := top
    have arrived : s.pc + 1 = 256 := by bv_omega
    rw [runFuel_succ_next (step_nop hs (by omega) (nops _ le_rfl (by omega))), runFuel_zero, arrived]
  | succ n ih =>
    have next_pc : (s.pc + 1).toNat = s.pc.toNat + 1 := by bv_omega
    rw [runFuel_succ_next (step_nop hs (by omega) (nops _ le_rfl (by omega)))]
    refine ih hs (by rw [next_pc]; omega) fun a ha => nops a ?_
    rw [next_pc] at ha; omega

/-- Above 255 the snapshot shows no byte (60_exceptions.md R157). -/
theorem snapshot_bytes_above (hpc : Config.memSize ≤ s.pc.toNat) : s.snapshot.bytes = #v[none, none, none] := by
  rw [State.snapshot, byteAt_of_ge hpc, byteAt_of_ge (hpc.trans (Nat.le_add_right _ 1)),
    byteAt_of_ge (hpc.trans (Nat.le_add_right _ 2))]

/-- Settles O51: the slide is `runFuel_nops`, and at its end the fetch faults. -/
theorem nopSlideRunsOffTheTop : Obligations.NopSlideRunsOffTheTop := by
  intro s hs hpc nops
  have slide : runFuel (256 - s.pc.toNat) s = { s with pc := 256, ir := opcodeMap .NOP } := by
    rw [show 256 - s.pc.toNat = (255 - s.pc.toNat) + 1 by omega]
    exact runFuel_nops hs (by omega) nops
  have runs_off := step_of_pc_above (s := { s with pc := 256, ir := opcodeMap .NOP }) hs le_rfl
  refine ⟨slide, _, ?_, snapshot_bytes_above (s := { s with pc := 256, ir := opcodeMap .NOP }) le_rfl⟩
  rw [show 257 - s.pc.toNat = (256 - s.pc.toNat) + 1 by omega, runFuel_add, slide]
  exact runFuel_succ_next (n := 0) runs_off

/-- A step at a JMP to its own address changes nothing but `ir`. -/
theorem step_jmp_self (hs : s.run = .running) (hpc : s.pc.toNat + 1 ≤ 255) (hop : s.mem.read s.pc.toNat = opcodeMap .JMP)
    (hoperand : s.mem.read (s.pc.toNat + 1) = RegIdx.byte r) (self : (s.reg r).toNat = s.pc.toNat) :
    step s = .next { s with ir := opcodeMap .JMP } := by
  have fetched := stepRunsTheInstructionAtPc s (.jmp (RegIdx.byte r)) hs (isReg_of_some (regIndex_byte r)) fun k hk => by
    have hk : k < 2 := hk
    rw [byteAt_of_lt (by simp only [Config.memSize]; omega)]
    interval_cases k
    · exact congrArg some hop
    · exact congrArg some hoperand
  have target : (s.reg r).toWord9 = s.pc := BitVec.eq_of_toNat_eq ((toWord9_toNat _).trans self)
  rw [fetched]
  refine (execJmp_of_legal (regIndex_byte r)).trans ?_
  exact congrArg (fun pc => Host.Outcome.next { s with pc := pc, ir := opcodeMap .JMP }) target

/-- Settles O52: the state a step leaves is again at the JMP, so by induction every number of steps leaves it. -/
theorem jumpToItselfNeverEnds : Obligations.JumpToItselfNeverEnds := by
  intro s r hs hpc hop hoperand self
  have stays (n : Nat) : runFuel (n + 1) s = { s with ir := opcodeMap .JMP } := by
    induction n generalizing s with
    | zero => rw [runFuel_succ_next (step_jmp_self hs hpc hop hoperand self), runFuel_zero]
    | succ n ih =>
      rw [runFuel_succ_next (step_jmp_self hs hpc hop hoperand self)]
      exact ih _ hs hpc hop hoperand self
  refine ⟨stays, fun n => ?_⟩
  cases n with
  | zero => exact hs
  | succ n => rw [stays n]; exact hs

end Sys2Proof.Machine

/-! ### The state at a fault (60_exceptions.md R154 to R158) -/

namespace Sys2Proof.Machine

variable {s t : State} {i : Instr} {k : FaultKind} {snap : Snapshot}

theorem exec_of_emptyStack (empty : s.sp = spInit) (which : i = .ret ∨ ∃ b r, regIndex b = some r ∧ i = .pop b) :
    exec i s = .next (s.faultedWith .stackUnderflow) := by
  rcases which with rfl | ⟨b, r, hr, rfl⟩
  · exact execRet_of_empty empty
  · exact execPop_of_empty empty hr

/-- Settles O43, from the one cause of the fault and from what an empty stack makes POP and RET do. -/
theorem stackUnderflowExactlyWhenEmpty : Obligations.StackUnderflowExactlyWhenEmpty := by
  intro i s t hs h
  refine ⟨⟨?_, ?_⟩, ?_⟩
  · rintro ⟨snap, ht⟩
    obtain ⟨empty, which, -⟩ := exec_stackUnderflow hs h ht
    exact ⟨empty, which⟩
  · rintro ⟨empty, which⟩
    rw [exec_of_emptyStack empty which] at h
    cases h
    exact ⟨_, rfl⟩
  · intro snap ht
    obtain ⟨-, -, rfl⟩ := exec_stackUnderflow hs h ht
    rfl

/-- An instruction that faults leaves the state as it was, but for the decrement of an overflow. -/
theorem exec_fault_cases (hs : s.run = .running) (h : exec i s = .next t) (ht : t.run = .faulted k snap) :
    (k ≠ .stackOverflow ∧ t = s.faultedWith k) ∨
      (k = .stackOverflow ∧ (s.sp - 1).toNat = s.rh.toNat ∧ t = s.decSp.faultedWith .stackOverflow) := by
  cases exec_outcome h with
  | completes _ running _ _ => rw [running, hs] at ht; cases ht
  | halts _ result => subst result; cases ht
  | fullStack full _ result => subst result; cases ht; exact .inr ⟨rfl, full, rfl⟩
  | badIndex _ result | zeroDivisor _ _ _ _ _ _ _ _ result | emptyStack _ _ result | callAtTop _ _ _ _ _ result =>
    subst result; cases ht; exact .inl ⟨nofun, rfl⟩

theorem faultOfDecodeError_ne_stackOverflow (e : DecodeError) : faultOfDecodeError e ≠ .stackOverflow := by
  cases e <;> exact nofun

/-- A step that faults leaves the state as it was after the latch, but for the decrement of an overflow. -/
theorem step_fault_cases (h : step s = .next t) (ht : t.run = .faulted k snap) :
    (k ≠ .stackOverflow ∧ t = s.latchIr.faultedWith k) ∨
      (k = .stackOverflow ∧ (s.sp - 1).toNat = s.rh.toNat ∧ t = s.latchIr.decSp.faultedWith .stackOverflow) := by
  obtain ⟨hs, ⟨e, -, rfl⟩ | ⟨i, rest, -, h⟩⟩ := step_cases h
  · cases ht
    exact .inl ⟨faultOfDecodeError_ne_stackOverflow e, rfl⟩
  · rw [← latchIr_sp (s := s), ← latchIr_rh (s := s)]
    exact exec_fault_cases (by rwa [latchIr_run]) h ht

theorem latchIr_eq : s.latchIr = s.withIr s.latchIr.ir := by
  unfold State.latchIr; split <;> rfl

theorem byteAt_eq_ite (a : Nat) : s.byteAt a = if a ≤ 255 then some (s.mem.read a) else none :=
  ite_congr (propext Nat.lt_succ_iff) (fun _ => rfl) fun _ => rfl

theorem snapshot_byte {n : Nat} (hn : n < 3) : s.snapshot.bytes[n] = s.byteAt (s.pc.toNat + n) := by
  interval_cases n <;> rfl

/-- Settles O41, from the two ways a step faults and from the record being the snapshot of the state it leaves. -/
theorem faultLeavesStateFrozen : Obligations.FaultLeavesStateFrozen := by
  intro s t k snap h ht
  obtain rfl : snap = t.snapshot := step_snapshot h ht
  have shown (n : Nat) (hn : n < 3) : t.snapshot.bytes[n] =
      if t.pc.toNat + n ≤ 255 then some (t.mem.read (t.pc.toNat + n)) else none := by
    rw [snapshot_byte hn, byteAt_eq_ite]
  refine ⟨fun hk => ?_, fun hk => ?_, rfl, rfl, shown⟩
  · obtain ⟨-, rfl⟩ | ⟨overflow, -⟩ := step_fault_cases h ht
    · rw [latchIr_eq]; rfl
    · exact absurd overflow hk
  · obtain ⟨other, -⟩ | ⟨rfl, full, rfl⟩ := step_fault_cases h ht
    · exact absurd hk other
    · refine ⟨?_, by rw [sp_faultedWith, sp_decSp, latchIr_sp, full]⟩
      rw [latchIr_eq]; rfl

end Sys2Proof.Machine

/-! ### OutOfRangeAddress (60_exceptions.md section 2)

A fetch raises it where there is no opcode byte or the window is shorter than the format, `decode_eq_missing_at_opcode`; an
instruction raises it for an illegal register byte, and CALL for a return address above 255. -/

namespace Sys2Proof

variable {m : Mnemonic} {bytes : List Byte}

theorem takeOne_eq_missing {mk : Byte → Instr} : takeOne mk bytes = .error .missingOperand ↔ bytes.length + 1 < 2 := by
  cases bytes <;> simp

theorem takeTwo_eq_missing {mk : Byte → Byte → Instr} :
    takeTwo mk bytes = .error .missingOperand ↔ bytes.length + 1 < 3 := by
  rcases bytes with _ | ⟨_, _ | ⟨_, _⟩⟩ <;> simp

/-- An operand byte is missing where the format is longer than the opcode and the bytes after it; INT never misses one. -/
theorem takeOperands_eq_missing :
    takeOperands m bytes = .error .missingOperand ↔ m ≠ .INT ∧ bytes.length + 1 < m.format.length := by
  cases m with
  | NOP | HLT | RET | IRET => simp [takeOperands, Mnemonic.format, Format.length]
  | INT => exact iff_of_false takeInt_ne_error fun h => h.1 rfl
  | PUSH | POP | PRN | PRA | CALL | JMP | JEQ | JNE | JGT | JLT | JLE | JGE | INC | DEC | NOT =>
    exact takeOne_eq_missing.trans (and_iff_right nofun).symm
  | LDI | LD | ST | ADD | SUB | MUL | DIV | MOD | CMP | AND | OR | XOR | SHL | SHR =>
    exact takeTwo_eq_missing.trans (and_iff_right nofun).symm

theorem format_length_le (m : Mnemonic) : m.format.length ≤ 3 := by
  cases m.format <;> decide

end Sys2Proof

namespace Sys2Proof.Machine

variable {s t : State} {i : Instr} {m : Mnemonic} {snap : Snapshot}

/-- At the opcode of `m` an operand byte is missing exactly where its address would be above 255 (40_dispatch_cycle.md
R73). -/
theorem decode_eq_missing_at_opcode (hpc : s.pc.toNat < Config.memSize) (hop : s.mem.read s.pc.toNat = opcodeMap m) :
    decode s.fetchWindow = .error .missingOperand ↔
      (s.pc.toNat = 255 ∧ m ≠ .INT ∧ 2 ≤ m.format.length) ∨ (s.pc.toNat = 254 ∧ m.format.length = 3) := by
  obtain ⟨bytes, hw, count⟩ := fetchWindow_cons hpc
  have in_memory : s.pc.toNat ≤ 255 := Nat.le_of_lt_succ hpc
  have longest : m.format.length ≤ 3 := format_length_le m
  have int_length : m = .INT → m.format.length = 2 := fun hint => hint ▸ rfl
  rw [hw, hop, decode_opcode, takeOperands_eq_missing, count]
  constructor
  · rintro ⟨hint, short⟩
    by_cases top : s.pc.toNat = 255
    · exact .inl ⟨top, hint, by omega⟩
    · exact .inr (by omega)
  · rintro (⟨top, hint, long⟩ | ⟨top, long⟩)
    · exact ⟨hint, by omega⟩
    · exact ⟨fun hint => by rw [int_length hint] at long; omega, by omega⟩

/-- Where an operand byte is missing, there is an opcode that asks for it. -/
theorem opcode_of_decode_eq_missing (hd : decode s.fetchWindow = .error .missingOperand) :
    s.pc.toNat < Config.memSize ∧ ∃ m, s.mem.read s.pc.toNat = opcodeMap m := by
  by_cases hpc : s.pc.toNat < Config.memSize
  · refine ⟨hpc, ?_⟩
    by_contra unassigned
    rw [not_exists] at unassigned
    rw [decode_fetchWindow_unrecognizedOpcode.2 ⟨hpc, fun m h => unassigned m h.symm, rfl⟩] at hd
    cases hd
  · rw [fetchWindow_of_ge (Nat.not_lt.1 hpc)] at hd; cases hd

theorem decode_eq_noOpcode (hd : decode s.fetchWindow = .error .noOpcode) : 255 < s.pc.toNat := by
  by_contra hpc
  obtain ⟨bytes, hw, -⟩ := fetchWindow_cons (Nat.lt_succ_of_le (Nat.not_lt.1 hpc))
  rw [hw, decode] at hd
  cases hm : dispatchTable opcodeMap (s.mem.read s.pc.toNat) with
  | none => rw [decodeWith_cons_none hm] at hd; cases hd
  | some m => rw [decodeWith_cons_some hm] at hd; cases takeOperands_eq_error hd

/-- Where an `OutOfRangeAddress` of an instruction comes from. -/
theorem exec_outOfRange (hs : s.run = .running) (h : exec i s = .next t) (ht : t.run = .faulted .outOfRangeAddress snap) :
    hasBadIndex i = true ∨ (Config.memSize ≤ s.pc.toNat + 2 ∧ ∃ r, i = .call r) := by
  cases exec_outcome h with
  | badIndex bad _ => exact .inl bad
  | callAtTop b _ _ which above _ => exact .inr ⟨above, b, which⟩
  | completes _ running _ _ => rw [running, hs] at ht; cases ht
  | zeroDivisor _ _ _ _ _ _ _ _ result | emptyStack _ _ result | fullStack _ _ result | halts _ result =>
    subst result; cases ht

/-- A decoded CALL lies below 255, so its return address is above 255 at 254 only. -/
theorem pc_of_call_at_top {r : Byte} {rest : List Byte} (hd : decode s.fetchWindow = .ok (.call r, rest))
    (above : Config.memSize ≤ s.pc.toNat + 2) : s.pc.toNat = 254 := by
  obtain ⟨hpc, hop⟩ := decode_fetchWindow_ok hd
  have below_top : s.pc.toNat ≠ 255 := fun top => by
    rw [(decode_eq_missing_at_opcode hpc hop).2 (.inl ⟨top, nofun, le_rfl⟩)] at hd
    cases hd
  simp only [Config.memSize] at hpc above
  omega

theorem step_of_missingOperand (hs : s.run = .running) (hd : decode s.fetchWindow = .error .missingOperand) :
    ∃ t snap, step s = .next t ∧ t.run = .faulted .outOfRangeAddress snap :=
  ⟨_, _, step_error hs hd, rfl⟩

/-- Settles O15: each cause of the fault, in the fetch or in the instruction, is one of the five cases, and each case raises
it. -/
theorem outOfRangeExactlyInFiveCases : Obligations.OutOfRangeExactlyInFiveCases := by
  intro s hs
  constructor
  · rintro ⟨t, snap, h, ht⟩
    obtain ⟨-, ⟨e, hd, rfl⟩ | ⟨i, rest, hd, h⟩⟩ := step_cases h
    · cases e with
      | noOpcode => exact .inl (decode_eq_noOpcode hd)
      | unrecognizedOpcode b => cases ht
      | missingOperand =>
        obtain ⟨hpc, m, hop⟩ := opcode_of_decode_eq_missing hd
        rcases (decode_eq_missing_at_opcode hpc hop).1 hd with ⟨top, hint, long⟩ | ⟨top, long⟩
        · exact .inr (.inl ⟨m, top, top ▸ hop, hint, long⟩)
        · exact .inr (.inr (.inl ⟨m, top, top ▸ hop, long⟩))
    · rcases exec_outOfRange (by rwa [latchIr_run]) h ht with bad | ⟨above, r, rfl⟩
      · exact .inr (.inr (.inr (.inl ⟨i, rest, hd, bad⟩)))
      · rw [latchIr_pc] at above
        exact .inr (.inr (.inr (.inr ⟨r, rest, pc_of_call_at_top hd above, hd⟩)))
  · rintro (above | ⟨m, top, hop, hint, long⟩ | ⟨m, top, hop, long⟩ | ⟨i, rest, hd, bad⟩ | ⟨r, rest, top, hd⟩)
    · exact ⟨_, _, step_of_pc_above hs above, rfl⟩
    · refine step_of_missingOperand hs ?_
      exact (decode_eq_missing_at_opcode (by rw [top]; decide) (by rwa [top])).2 (.inl ⟨top, hint, long⟩)
    · refine step_of_missingOperand hs ?_
      exact (decode_eq_missing_at_opcode (by rw [top]; decide) (by rwa [top])).2 (.inr ⟨top, long⟩)
    · exact ⟨_, _, (step_ok hs hd).trans (exec_of_hasBadIndex bad), rfl⟩
    · have above : Config.memSize ≤ s.latchIr.pc.toNat + 2 := by rw [latchIr_pc, top]
      exact ⟨_, _, (step_ok hs hd).trans (execCall_of_above above), rfl⟩

end Sys2Proof.Machine
